-- ==== Sys2Proof/Word.lean ====
section
/-! DEFINITION. The bit-vector types of MHBX: key bytes, 64-bit words, 72-bit frames (spec/00_scope.md R11, R12; spec/30_encoding.md R60, R61). -/

namespace Sys2Proof

/-- A byte of the key space (R30). -/
abbrev Byte := BitVec 8

/-- A 64-bit word: an entry of the word cache, an operand, a response's data (R11, R21, R60). -/
abbrev Word := BitVec 64

/-- A 72-bit command or response frame (R60, R61). -/
abbrev Frame := BitVec 72

end Sys2Proof
end

