-- ==== Sys2Proof/Syntax.lean ====
section
/-! DEFINITION. The thirteen commands of MHBX (spec/30_encoding.md R64; spec/opcode_table.json) and the parts of a response (R61, R171). -/

namespace Sys2Proof

/-- One constructor per row of spec/opcode_table.json, its operand at the width of its format (R62). -/
inductive Instr where
  /-- NOP, do nothing (R141). -/
  | nop
  /-- KCLR, clear the key (R81). -/
  | kclr
  /-- KPUSH, append one key byte (R82). -/
  | kpush (b : Byte)
  /-- KPUSHW, append eight key bytes given as one little-endian word (R83). -/
  | kpushw (w : Word)
  /-- MHASH, hash the key buffer with the given seed (R98). -/
  | mhash (seed : BitVec 32)
  /-- RHASH, one rehash step on the given word (R112). -/
  | rhash (w : Word)
  /-- GETBIT, one bit of the stream, filling the cache as needed (R124). -/
  | getbit (i : BitVec 32)
  /-- CRESET, reset the cursor (R128). -/
  | creset
  /-- RDCUR, read the cursor (R129). -/
  | rdcur
  /-- RDW, read a valid cache word (R130). -/
  | rdw (n : BitVec 32)
  /-- RDKLEN, read the key length (R84). -/
  | rdklen
  /-- RDCFG, read a hardwired constant (R142). -/
  | rdcfg (sel : BitVec 8)
  /-- RDERR, read the fault latch (R143). -/
  | rderr
deriving DecidableEq, Repr

/-- The four operand formats (R62). -/
inductive Format where
  /-- No operand; `arg[63:0]` reserved. -/
  | N
  /-- `imm8 = arg[7:0]`; `arg[63:8]` reserved. -/
  | B
  /-- `imm32 = arg[31:0]`; `arg[63:32]` reserved. -/
  | D
  /-- `imm64 = arg[63:0]`; nothing reserved. -/
  | Q
deriving DecidableEq, Repr

/-- The causes of a command fault (R171). -/
inductive CommandFault where
  /-- `op > 0x0C` (R65). -/
  | illegalOpcode
  /-- A reserved operand bit is 1, or RDCFG's selector names no constant (R66, R142). -/
  | illegalOperand
  /-- A push beyond `KEY_CAP` (R82, R83). -/
  | keyOverflow
  /-- A bit index whose order is not below `CACHE_WORDS` (R124). -/
  | cacheRange
  /-- RDW of an entry beyond the cursor (R130). -/
  | wordInvalid
deriving DecidableEq, Repr

/-- The status of a response: OK or the fault's code (R61, R171). No other code exists. -/
inductive Status where
  /-- The command completed. -/
  | ok
  /-- The command ended with the fault. -/
  | fault (c : CommandFault)
deriving DecidableEq, Repr

/-- One response of the block (R61). -/
structure Response where
  /-- `status`, bits [71:64]. -/
  status : Status
  /-- `data`, bits [63:0]. -/
  data : Word
deriving DecidableEq, Repr

end Sys2Proof
end

