-- ==== Sys2Proof/Config.lean ====
section
/-! DEFINITION. The implementation parameters of the block and of the host's client (spec/00_scope.md R8, R9, R10) and the values the spec leaves unspecified (R31, R192). -/

namespace Sys2Proof

/-- The block's parameters (R8). `Config.wf` in WellFormed.lean holds their ranges. -/
structure Config where
  /-- `SEED`, the fixed seed of the Rehash Step and of stream word 0. -/
  seed : BitVec 32
  /-- `CACHE_WORDS`, the number of entries of `W`. -/
  cacheWords : Nat
  /-- `KEY_CAP`, the capacity of `KEY` in bytes. -/
  keyCap : Nat
deriving DecidableEq, Repr

/-- CFG-REF's block part (R8, R10). SEED and CACHE_WORDS are the spec's general-knowledge values (PRESUMED, log 1). -/
def Config.ref : Config := { seed := 0xF9F198EF#32, cacheWords := 1024, keyCap := 256 }

/-- CFG-SMALL's block part (R10). -/
def Config.small : Config := { seed := 0#32, cacheWords := 2, keyCap := 12 }

/-- The parameters of the host's reference client (R9, R150); they are not the block's. -/
structure HostConfig where
  /-- `SHIFT`, bit-position stride and log2 of the pool limit. -/
  shift : Nat
  /-- `MAX_TRIES`, the attempt bound. -/
  maxTries : Nat
deriving DecidableEq, Repr

/-- CFG-REF's host part (R9, R10). -/
def HostConfig.ref : HostConfig := { shift := 23, maxTries := 32 }

/-- CFG-SMALL's host part (R10). -/
def HostConfig.small : HostConfig := { shift := 4, maxTries := 2 }

/-- What entry `n` of `W` holds while nothing has written it: an uninterpreted draw (R192: "an option type or an
uninterpreted draw"). DESIGN CHOICE, log 4. -/
opaque Config.unspecifiedWord : Nat → Word

/-- What byte `a` of `KEY` holds while nothing has written it: an uninterpreted draw (R192). DESIGN CHOICE, log 4. -/
opaque Config.unspecifiedByte : Nat → Byte

end Sys2Proof
end

