-- ==== Sys2Proof/WellFormed.lean ====
section
/-! DEFINITION. The checks on syntax and parameters: operands the spec calls legal (R66, R142), operands that fit their format (R62, R69), parameters in their ranges (R8, R150). -/

namespace Sys2Proof

/-- The operand is one the command's rule calls legal before any state is looked at. The operand's width is in the
type of `Instr`; the one value check is RDCFG's selector (R142: "ILLEGAL_OPERAND if `arg[63:8] ≠ 0` or `sel > 2`"). An
ill-formed command still decodes and has its meaning: it faults with ILLEGAL_OPERAND. -/
def Instr.wf : Instr → Bool
  | .rdcfg sel => decide (sel.toNat ≤ 2)
  | .nop => true
  | .kclr => true
  | .kpush _ => true
  | .kpushw _ => true
  | .mhash _ => true
  | .rhash _ => true
  | .getbit _ => true
  | .creset => true
  | .rdcur => true
  | .rdw _ => true
  | .rdklen => true
  | .rderr => true

/-- How many low bits of `arg` the format uses (R62). -/
def Format.operandBits : Format → Nat
  | .N => 0
  | .B => 8
  | .D => 32
  | .Q => 64

/-- A number given as operand fits the format: "An operand too wide for its format is an assembly error" (R69). -/
def Format.fits (f : Format) (v : Nat) : Bool := decide (v < 2 ^ f.operandBits)

/-- The ranges of the block's parameters (R8). -/
def Config.wf (c : Config) : Bool :=
  decide (1 ≤ c.cacheWords) && decide (c.cacheWords ≤ 2 ^ 26) && decide (c.keyCap ≤ 2 ^ 32 - 1)

/-- The ranges of the client's parameters (R150): positive, and every bit index fits GETBIT's operand. -/
def HostConfig.wf (h : HostConfig) : Bool :=
  decide (1 ≤ h.shift) && decide (1 ≤ h.maxTries) && decide (h.maxTries * h.shift ^ 2 ≤ 2 ^ 32 - 1)

/-- The cache is large enough for the client: `CACHE_WORDS ≥ (MAX_TRIES * SHIFT^2) div 64 + 1` (R160). -/
def HostConfig.fitsCache (h : HostConfig) (c : Config) : Bool :=
  decide (h.maxTries * h.shift ^ 2 / 64 + 1 ≤ c.cacheWords)

end Sys2Proof
end

