-- ==== Sys2Proof/Decode.lean ====
section
/-! DEFINITION. Command frames to commands and back, and response frames (spec/30_encoding.md R60 to R68). -/

namespace Sys2Proof

/-- `op`, bits [71:64] of a command frame (R60). -/
def frameOp (f : Frame) : BitVec 8 := f.extractLsb' 64 8

/-- `arg`, bits [63:0] of a command frame (R60). -/
def frameArg (f : Frame) : Word := f.extractLsb' 0 64

/-- The frame written `op_arg` (R60). -/
def mkFrame (op : BitVec 8) (arg : Word) : Frame := op ++ arg

/-- Format N: all of `arg` is reserved (R62, R66). -/
def decodeN (arg : Word) (i : Instr) : Except CommandFault Instr :=
  if arg = 0#64 then .ok i else .error .illegalOperand

/-- Format B: the operand is `arg[7:0]`, `arg[63:8]` is reserved (R62, R66). -/
def decodeB (arg : Word) (mk : BitVec 8 → Instr) : Except CommandFault Instr :=
  if arg.extractLsb' 8 56 = 0#56 then .ok (mk (arg.extractLsb' 0 8)) else .error .illegalOperand

/-- Format D: the operand is `arg[31:0]`, `arg[63:32]` is reserved (R62, R66). -/
def decodeD (arg : Word) (mk : BitVec 32 → Instr) : Except CommandFault Instr :=
  if arg.extractLsb' 32 32 = 0#32 then .ok (mk (arg.extractLsb' 0 32)) else .error .illegalOperand

/-- Format Q: the operand is all of `arg`, nothing is reserved (R62). -/
def decodeQ (arg : Word) (mk : Word → Instr) : Except CommandFault Instr := .ok (mk arg)

/-- R67: total on all 72-bit frames. The opcode is looked at first, then the reserved operand bits (R174). -/
def decode (f : Frame) : Except CommandFault Instr :=
  match (frameOp f).toNat with
  | 0x00 => decodeN (frameArg f) .nop
  | 0x01 => decodeN (frameArg f) .kclr
  | 0x02 => decodeB (frameArg f) .kpush
  | 0x03 => decodeQ (frameArg f) .kpushw
  | 0x04 => decodeD (frameArg f) .mhash
  | 0x05 => decodeQ (frameArg f) .rhash
  | 0x06 => decodeD (frameArg f) .getbit
  | 0x07 => decodeN (frameArg f) .creset
  | 0x08 => decodeN (frameArg f) .rdcur
  | 0x09 => decodeD (frameArg f) .rdw
  | 0x0A => decodeN (frameArg f) .rdklen
  | 0x0B => decodeB (frameArg f) .rdcfg
  | 0x0C => decodeN (frameArg f) .rderr
  | _ => .error .illegalOpcode

/-- The opcode of a command (R64). -/
def Instr.opcode : Instr → BitVec 8
  | .nop => 0x00#8
  | .kclr => 0x01#8
  | .kpush _ => 0x02#8
  | .kpushw _ => 0x03#8
  | .mhash _ => 0x04#8
  | .rhash _ => 0x05#8
  | .getbit _ => 0x06#8
  | .creset => 0x07#8
  | .rdcur => 0x08#8
  | .rdw _ => 0x09#8
  | .rdklen => 0x0A#8
  | .rdcfg _ => 0x0B#8
  | .rderr => 0x0C#8

/-- The operand format of a command (R62, R64). -/
def Instr.format : Instr → Format
  | .nop => .N
  | .kclr => .N
  | .kpush _ => .B
  | .kpushw _ => .Q
  | .mhash _ => .D
  | .rhash _ => .Q
  | .getbit _ => .D
  | .creset => .N
  | .rdcur => .N
  | .rdw _ => .D
  | .rdklen => .N
  | .rdcfg _ => .B
  | .rderr => .N

/-- `arg` of a command: its operand zero-extended, every reserved bit zero (R62, R63). -/
def Instr.arg : Instr → Word
  | .nop => 0#64
  | .kclr => 0#64
  | .kpush b => b.setWidth 64
  | .kpushw w => w
  | .mhash s => s.setWidth 64
  | .rhash w => w
  | .getbit i => i.setWidth 64
  | .creset => 0#64
  | .rdcur => 0#64
  | .rdw n => n.setWidth 64
  | .rdklen => 0#64
  | .rdcfg s => s.setWidth 64
  | .rderr => 0#64

/-- The command's frame (R60, R64). -/
def encode (i : Instr) : Frame := mkFrame i.opcode i.arg

/-- The opcode map's `match` column (R64). -/
def Instr.rowMatch (i : Instr) : Frame := mkFrame i.opcode 0#64

/-- The opcode map's `mask` column (R64): the opcode and the format's reserved bits. -/
def Format.rowMask : Format → Frame
  | .N => 0xFFFFFFFFFFFFFFFFFF#72
  | .B => 0xFFFFFFFFFFFFFFFF00#72
  | .D => 0xFFFFFFFFFF00000000#72
  | .Q => 0xFF0000000000000000#72

/-- The status and cause code of a fault (R171). -/
def CommandFault.code : CommandFault → BitVec 8
  | .illegalOpcode => 0x01#8
  | .illegalOperand => 0x02#8
  | .keyOverflow => 0x03#8
  | .cacheRange => 0x04#8
  | .wordInvalid => 0x05#8

/-- The status field (R61, R171). -/
def Status.code : Status → BitVec 8
  | .ok => 0x00#8
  | .fault c => c.code

/-- The response frame `status_data` (R61). -/
def Response.toFrame (r : Response) : Frame := r.status.code ++ r.data

/-- The host's question: the command read from a table row's bits, `none` where the frame is rejected. Bits above
`nbits` are zero; a frame is one 72-bit word, so bit 0 of the table is bit 0 of the frame. -/
def decodeTableWord (nbits w : Nat) : Option Instr :=
  match decode (BitVec.ofNat 72 (w % 2 ^ nbits)) with
  | .ok i => some i
  | .error _ => none

end Sys2Proof
end

