-- ==== Sys2Proof/Machine/Flags.lean ====
section
/-! DEFINITION. The fault latch `ERR` and its fields (spec/10_state.md R26; spec/60_exceptions.md R173). MHBX has no condition codes or flags (R28). -/

namespace Sys2Proof.Machine

/-- Field `F`, bit 0: a command has faulted since reset (R26). -/
def errF (e : BitVec 16) : Bool := e.getLsbD 0

/-- Field `CAUSE`, bits [15:8]: the first fault's code (R26). -/
def errCause (e : BitVec 16) : BitVec 8 := e.extractLsb' 8 8

/-- `(c << 8) | 1`: the latch after a first fault with code `c` (R173). -/
def errOf (c : CommandFault) : BitVec 16 := (c.code.setWidth 16 <<< 8) ||| 1#16

/-- R173: the first cause is kept. -/
def latchErr (e : BitVec 16) (c : CommandFault) : BitVec 16 := if errF e then e else errOf c

/-- The legal values of `ERR`: 0, and `(c << 8) | 1` for each fault code (R26). -/
def errLegal (e : BitVec 16) : Bool :=
  e == 0#16 || e == errOf .illegalOpcode || e == errOf .illegalOperand || e == errOf .keyOverflow ||
    e == errOf .cacheRange || e == errOf .wordInvalid

end Sys2Proof.Machine
end

