-- ==== Sys2Proof/Machine/Operands.lean ====
section
/-! DEFINITION. Reading operands: bytes of a word and words of bytes, little-endian (spec/20_memory.md R40 to R42), the parts of a bit index (spec/43_bitstream.md R121, R122), the cursor's read-back form (R129). -/

namespace Sys2Proof.Machine

/-- `zext_64` (R12, R63). -/
def zext64 {n : Nat} (v : BitVec n) : Word := v.setWidth 64

/-- Byte `j` of a word, counted from the least significant: `bits[8j+7 : 8j]` (R83). -/
def wordByte (w : Word) (j : Nat) : Byte := w.extractLsb' (8 * j) 8

/-- `MemRead(a, n)`: the `n` bytes from offset `a` as one unsigned little-endian integer (R12, R40). -/
def memRead (B : Nat → Byte) (a n : Nat) : Word :=
  (List.range n).foldl (fun acc j => acc + (zext64 (B (a + j)) <<< (8 * j))) 0#64

/-- `order = i div 64`: which word of the stream a bit index selects (R121). -/
def bitOrder (i : BitVec 32) : Nat := i.toNat / 64

/-- `i mod 64`: which bit of that word, counted from the least significant (R121). -/
def bitPosition (i : BitVec 32) : Nat := i.toNat % 64

/-- Bit `p` of a word as response data: `zext_64((w >> p) & 1)` (R124). -/
def selectBit (w : Word) (p : Nat) : Word := (w >>> p) &&& 1#64

/-- The cursor as a 64-bit two's-complement number, `none` reading as -1 (R22, R129). -/
def cursorData : Option Nat → Word
  | none => 0xFFFFFFFFFFFFFFFF#64
  | some c => BitVec.ofNat 64 c

end Sys2Proof.Machine
end

