-- ==== Sys2Proof/Machine/Hash.lean ====
section
/-! DEFINITION. The pure functions of MHBX: the Mixing Hash (spec/41_mixing_hash.md R90 to R97), the Rehash Step (spec/42_rehash.md R110), the stream of a key and its bits (spec/43_bitstream.md R120, R121). -/

namespace Sys2Proof.Machine

/-- The multiplier `M` (R90). -/
def hashM : Word := 0xC6A4A7935BD1E995#64

/-- The shift distance `R = 47` (R90): a logical right shift, never a rotation (90_conflicts.md C8). -/
def hashR : Nat := 47

/-- `mul64`: multiplication modulo 2^64 (R12, R91). -/
def mul64 (a b : Word) : Word := a * b

/-- `x xor (x >> 47)` (R94, R96), the shift logical (R91). -/
def xorShift (x : Word) : Word := x ^^^ (x >>> hashR)

/-- `h <- zext_64(seed) xor mul64(zext_64(len), M)` (R92). -/
def hashInit (len : Nat) (seed : BitVec 32) : Word := zext64 seed ^^^ mul64 (BitVec.ofNat 64 len) hashM

/-- The block word's own mixing: `k *= M; k ^= k >> R; k *= M` (R94). -/
def mixWord (k : Word) : Word := mul64 (xorShift (mul64 k hashM)) hashM

/-- The block round of R94: `h ^= k; h *= M` with `k` mixed. -/
def mixRound (h k : Word) : Word := mul64 (h ^^^ mixWord k) hashM

/-- The block loop of R93: words `0 .. nblocks - 1` in increasing order. -/
def mixBlocks (B : Nat → Byte) (nblocks : Nat) (h : Word) : Word :=
  (List.range nblocks).foldl (fun h i => mixRound h (memRead B (8 * i) 8)) h

/-- The tail fold of R95: byte `j` of the `t` trailing bytes at shift `8j`. -/
def foldTail (B : Nat → Byte) (o t : Nat) (h : Word) : Word :=
  (List.range t).foldl (fun h j => h ^^^ (zext64 (B (o + j)) <<< (8 * j))) h

/-- The tail of R95: fold and multiply when `t > 0`, nothing when `t = 0`. -/
def mixTail (B : Nat → Byte) (o t : Nat) (h : Word) : Word :=
  if t = 0 then h else mul64 (foldTail B o t h) hashM

/-- Finalisation (R96): `h ^= h >> R; h *= M; h ^= h >> R`. -/
def fin64 (h : Word) : Word := xorShift (mul64 (xorShift h) hashM)

/-- The Mixing Hash of the bytes `B 0 .. B (len - 1)` (R97). -/
def mix64 (B : Nat → Byte) (len : Nat) (seed : BitVec 32) : Word :=
  fin64 (mixTail B (8 * (len / 8)) (len % 8) (mixBlocks B (len / 8) (hashInit len seed)))

/-- The Mixing Hash of a byte sequence given as a list; offsets at or beyond its length are never read (R99). -/
def mix64Bytes (K : List Byte) (seed : BitVec 32) : Word := mix64 (fun a => K.getD a 0#8) K.length seed

/-- The Rehash Step (R110): one block round on `w` itself, `h` initialised as for `len = 8`, then finalisation. -/
def rehash64 (seed : BitVec 32) (w : Word) : Word := fin64 (mixRound (hashInit 8 seed) w)

/-- `S_n(K)`, word `n` of the stream of key `K` (R120). -/
def streamWord (seed : BitVec 32) (K : List Byte) : Nat → Word
  | 0 => mix64Bytes K seed
  | n + 1 => rehash64 seed (streamWord seed K n)

/-- `bit(K, i)`: bit `i mod 64` of `S_(i div 64)(K)` (R121). -/
def streamBit (seed : BitVec 32) (K : List Byte) (i : Nat) : Bool :=
  (streamWord seed K (i / 64)).getLsbD (i % 64)

end Sys2Proof.Machine
end

