-- ==== Sys2Proof/Machine/State.lean ====
section
/-! DEFINITION. The state of one MHBX instance (spec/10_state.md R20 to R31), the host's channel, and the machine after reset. -/

namespace Sys2Proof.Machine

/-- A sparse array of `w`-bit cells by address. Canonical form: addresses strictly rising (`Cells.wf`). An unlisted
address holds no value (R192: "A model should give these cells no value"). -/
abbrev Cells (w : Nat) := List (Nat × BitVec w)

/-- The key buffer's storage: (offset, byte) pairs. -/
abbrev Memory := List Host.Cell

/-- What the host can do to the block between two commands (R16, R194). -/
inductive HostMove where
  /-- Send one 72-bit command frame, any value. -/
  | command (f : Frame)
  /-- Raise `RST` (R190). -/
  | reset
deriving DecidableEq, Repr

/-- One MHBX instance with its channels. `words`, `cur`, `key`, `klen`, `err` are the five pieces of architectural
state of R20; `cfg`, `input`, `output` are the model's own (log 1, log 2). -/
structure State where
  /-- The parameters SEED, CACHE_WORDS, KEY_CAP (R8). No command and no reset writes them (log 1). -/
  cfg : Config
  /-- `W`, the word cache (R21). -/
  words : Cells 64
  /-- `CUR`, the cursor; the spec's `none` is `none` (R22). -/
  cur : Option Nat
  /-- `KEY`, the key buffer (R24). -/
  key : Memory
  /-- `KLEN`, the key length in bytes (R25). -/
  klen : BitVec 32
  /-- `ERR`, the sticky fault latch (R26). -/
  err : BitVec 16
  /-- The host's moves still to come, next first: the command channel (R50, log 2). -/
  input : List HostMove
  /-- The responses returned so far, oldest first: the response channel (R61, log 2). -/
  output : List Response
deriving DecidableEq, Repr

/-- The machine's own faults: none. R17: "There is no stuck state, no refusal and no nondeterministic choice inside the
block"; a command fault of R171 is a next state (R172). Nobody raises one; safe, since nothing is cut short (log 3). -/
inductive Fault where
deriving DecidableEq, Repr

/-- Refusals. -/
inductive Refusal where
  /-- Raised by `exec` for an instruction that has no meaning yet: no arm does so here. Safe: the machine stops. -/
  | notModelled (mnemonic : String)
deriving DecidableEq, Repr

/-- The state right after reset with parameters `c` (R31, R190): `CUR` none, `KLEN` and `ERR` zero, `W` and `KEY` without
value, nothing on the channels. -/
def State.resetWith (c : Config) : State :=
  { cfg := c, words := [], cur := none, key := [], klen := 0#32, err := 0x0000#16, input := [], output := [] }

/-- The machine right after reset, in the reference configuration CFG-REF (R10, R31; log 1). -/
def State.reset : State := State.resetWith Config.ref

end Sys2Proof.Machine
end

