-- ==== Sys2Proof/Machine/Ops.lean ====
section
/-! DEFINITION. The named operations over the key buffer, the word cache, the cursor and the channels; taking a command fault; the hardware reset. -/

namespace Sys2Proof.Machine

/-- The cell listed at an address; `none` where nothing is listed (no value, R192). -/
def Cells.read? {w : Nat} : Cells w → Nat → Option (BitVec w)
  | [], _ => none
  | (b, v) :: rest, a => if a = b then some v else Cells.read? rest a

/-- Writing a cell, keeping addresses strictly rising. -/
def Cells.write {w : Nat} : Cells w → Nat → BitVec w → Cells w
  | [], a, v => [(a, v)]
  | (b, u) :: rest, a, v =>
    if a < b then (a, v) :: (b, u) :: rest
    else if a = b then (a, v) :: rest
    else (b, u) :: Cells.write rest a v

/-- The canonical form: addresses strictly rising. An unlisted cell holds no value, so no listed one equals it. -/
def Cells.wf {w : Nat} : Cells w → Bool
  | [] => true
  | (a, _) :: rest =>
    (match rest with
      | [] => true
      | (b, _) :: _ => decide (a < b)) && Cells.wf rest

/-- The key buffer's storage is in canonical form. -/
def Memory.wf (m : Memory) : Bool := Cells.wf (w := 8) m

/-- `MemWrite(a, n, v)`: the low `n` bytes of `v` to offsets `a .. a+n-1`, little-endian (R12, R42). -/
def memWrite (m : Memory) (a n : Nat) (v : Word) : Memory :=
  (List.range n).foldl (fun m j => Cells.write (w := 8) m (a + j) (wordByte v j)) m

/-- `KEY[a]` (R24). A byte nothing has written is the free draw of log 4; R99: no command reads one from a legal state. -/
def State.keyByte (s : State) (a : Nat) : Byte :=
  (Cells.read? (w := 8) s.key a).getD (Config.unspecifiedByte a)

/-- `W[n]` (R21). An entry nothing has written is the free draw of log 4; R131: no command reads one from a legal state. -/
def State.word (s : State) (n : Nat) : Word :=
  (Cells.read? s.words n).getD (Config.unspecifiedWord n)

/-- `KEY[0 .. KLEN-1]`, the key presented to the hash (R80). -/
def State.keyBytes (s : State) : List Byte := (List.range s.klen.toNat).map s.keyByte

/-- `respond(d)` (R12): status OK and the data. -/
def State.respond (s : State) (d : Word) : State :=
  { s with output := s.output ++ [{ status := .ok, data := d }] }

/-- Taking a command fault (R172, R173): no architectural state changes but the latch `ERR`; the response is the code
with data 0. There is no vector, no mode, no saved state, and no return from a fault (R176). -/
def State.takeFault (s : State) (c : CommandFault) : State :=
  { s with err := latchErr s.err c, output := s.output ++ [{ status := .fault c, data := 0#64 }] }

/-- `KLEN <- k`. -/
def State.setKlen (s : State) (k : BitVec 32) : State := { s with klen := k }

/-- `CUR <- c`. -/
def State.setCur (s : State) (c : Option Nat) : State := { s with cur := c }

/-- `W[n] <- v`. -/
def State.writeWord (s : State) (n : Nat) (v : Word) : State := { s with words := Cells.write s.words n v }

/-- `n` more bytes fit the key buffer: not `KLEN + n > KEY_CAP` (R82, R83). -/
def State.keyRoom (s : State) (n : Nat) : Bool := decide (s.klen.toNat + n ≤ s.cfg.keyCap)

/-- `MemWrite(KLEN, n, v); KLEN <- KLEN + n` (R82, R83). -/
def State.appendKey (s : State) (n : Nat) (v : Word) : State :=
  { s with key := memWrite s.key s.klen.toNat n v, klen := s.klen + BitVec.ofNat 32 n }

/-- The value GETBIT computes for entry `n`: word 0 from the key, word `n` from word `n - 1` (R120, R124). -/
def State.nextWord (s : State) : Nat → Word
  | 0 => mix64 s.keyByte s.klen.toNat s.cfg.seed
  | n + 1 => rehash64 s.cfg.seed (s.word n)

/-- Compute and write `count` words from index `first` up, in increasing order (R124). -/
def State.fillWords (s : State) (first : Nat) : Nat → State
  | 0 => s
  | count + 1 => (s.writeWord first (s.nextWord first)).fillWords (first + 1) count

/-- The first index the fill computes: 0 when the cursor is none, else the one after it (R124). -/
def firstMissing : Option Nat → Nat
  | none => 0
  | some c => c + 1

/-- GETBIT's fill (R124): when `order` is beyond the cursor, `W[first .. order]` and `CUR <- order`; otherwise nothing
(R125). The number of words computed is R200's cost. -/
def State.fillTo (s : State) (order : Nat) : State :=
  if firstMissing s.cur ≤ order then
    (s.fillWords (firstMissing s.cur) (order + 1 - firstMissing s.cur)).setCur (some order)
  else s

/-- `RST` (R190): every piece of state at its reset value, `W` and `KEY` without value again. The parameters are
hardwired; the moves still to come and the responses already returned are the host's. -/
def State.applyReset (s : State) : State :=
  { State.resetWith s.cfg with input := s.input, output := s.output }

end Sys2Proof.Machine
end

