-- ==== Sys2Proof/Machine/Bitstream.lean ====
section
/-! DEFINITION. The bitstream cache commands GETBIT, CRESET, RDCUR, RDW (spec/43_bitstream.md R124 to R130). -/

namespace Sys2Proof.Machine

/-- GETBIT (R124): CACHE_RANGE before anything is computed; else fill as needed and answer the bit. -/
def execGetbit (i : BitVec 32) (s : State) : Host.Outcome State Fault Refusal :=
  if s.cfg.cacheWords ≤ bitOrder i then .next (s.takeFault .cacheRange)
  else .next ((s.fillTo (bitOrder i)).respond (selectBit ((s.fillTo (bitOrder i)).word (bitOrder i)) (bitPosition i)))

/-- CRESET (R128): `CUR` only; `W` keeps its bits. -/
def execCreset (s : State) : Host.Outcome State Fault Refusal :=
  .next ((s.setCur none).respond 0#64)

/-- RDCUR (R129). -/
def execRdcur (s : State) : Host.Outcome State Fault Refusal :=
  .next (s.respond (cursorData s.cur))

/-- RDW (R130): WORD_INVALID when the cursor is none or the index is beyond it; never computes a word. -/
def execRdw (n : BitVec 32) (s : State) : Host.Outcome State Fault Refusal :=
  if n.toNat < firstMissing s.cur then .next (s.respond (s.word n.toNat))
  else .next (s.takeFault .wordInvalid)

end Sys2Proof.Machine
end

