-- ==== Sys2Proof/Machine/HashCommands.lean ====
section
/-! DEFINITION. The stateless hash commands MHASH (spec/41_mixing_hash.md R98) and RHASH (spec/42_rehash.md R112). -/

namespace Sys2Proof.Machine

/-- MHASH (R98): the Mixing Hash of the key buffer with the operand as seed; no state written. -/
def execMhash (seed : BitVec 32) (s : State) : Host.Outcome State Fault Refusal :=
  .next (s.respond (mix64 s.keyByte s.klen.toNat seed))

/-- RHASH (R112): one rehash step on the operand; reads no state but the constant SEED, cannot fault. -/
def execRhash (w : Word) (s : State) : Host.Outcome State Fault Refusal :=
  .next (s.respond (rehash64 s.cfg.seed w))

end Sys2Proof.Machine
end

