-- ==== Sys2Proof/Machine/KeyBuffer.lean ====
section
/-! DEFINITION. The key buffer commands KCLR, KPUSH, KPUSHW, RDKLEN (spec/40_key_buffer.md R80 to R85). -/

namespace Sys2Proof.Machine

/-- KCLR (R81): `KLEN` only; `KEY`, `CUR`, `W` are not touched. -/
def execKclr (s : State) : Host.Outcome State Fault Refusal :=
  .next ((s.setKlen 0#32).respond 0#64)

/-- KPUSH (R82): one byte at offset `KLEN`, or KEY_OVERFLOW. -/
def execKpush (b : Byte) (s : State) : Host.Outcome State Fault Refusal :=
  if s.keyRoom 1 then .next ((s.appendKey 1 (zext64 b)).respond 0#64)
  else .next (s.takeFault .keyOverflow)

/-- KPUSHW (R83): eight bytes little-endian from offset `KLEN`, or KEY_OVERFLOW with nothing pushed. -/
def execKpushw (w : Word) (s : State) : Host.Outcome State Fault Refusal :=
  if s.keyRoom 8 then .next ((s.appendKey 8 w).respond 0#64)
  else .next (s.takeFault .keyOverflow)

/-- RDKLEN (R84). -/
def execRdklen (s : State) : Host.Outcome State Fault Refusal :=
  .next (s.respond (zext64 s.klen))

end Sys2Proof.Machine
end

