-- ==== Sys2Proof/Machine/System.lean ====
section
/-! DEFINITION. The system commands NOP, RDCFG, RDERR (spec/44_system.md R140 to R143). -/

namespace Sys2Proof.Machine

/-- NOP (R141). -/
def execNop (s : State) : Host.Outcome State Fault Refusal :=
  .next (s.respond 0#64)

/-- The hardwired constants RDCFG reads, by selector (R142). -/
def cfgConstant (c : Config) (sel : BitVec 8) : Option Word :=
  match sel.toNat with
  | 0 => some (zext64 c.seed)
  | 1 => some (BitVec.ofNat 64 c.cacheWords)
  | 2 => some (BitVec.ofNat 64 c.keyCap)
  | _ => none

/-- RDCFG (R142): a constant, or ILLEGAL_OPERAND for a selector that names none. -/
def execRdcfg (sel : BitVec 8) (s : State) : Host.Outcome State Fault Refusal :=
  match cfgConstant s.cfg sel with
  | some d => .next (s.respond d)
  | none => .next (s.takeFault .illegalOperand)

/-- RDERR (R143): reading does not clear the latch. -/
def execRderr (s : State) : Host.Outcome State Fault Refusal :=
  .next (s.respond (zext64 s.err))

end Sys2Proof.Machine
end

