-- ==== Sys2Proof/Machine/Dispatch.lean ====
section
/-! DEFINITION. One arm per command (spec/30_encoding.md R64). -/

namespace Sys2Proof.Machine

def exec (i : Instr) (s : State) : Host.Outcome State Fault Refusal :=
  match i with
  | .nop => Sys2Proof.Machine.execNop s
  | .kclr => Sys2Proof.Machine.execKclr s
  | .kpush b => Sys2Proof.Machine.execKpush b s
  | .kpushw w => Sys2Proof.Machine.execKpushw w s
  | .mhash seed => Sys2Proof.Machine.execMhash seed s
  | .rhash w => Sys2Proof.Machine.execRhash w s
  | .getbit i' => Sys2Proof.Machine.execGetbit i' s
  | .creset => Sys2Proof.Machine.execCreset s
  | .rdcur => Sys2Proof.Machine.execRdcur s
  | .rdw n => Sys2Proof.Machine.execRdw n s
  | .rdklen => Sys2Proof.Machine.execRdklen s
  | .rdcfg sel => Sys2Proof.Machine.execRdcfg sel s
  | .rderr => Sys2Proof.Machine.execRderr s

end Sys2Proof.Machine
end

