-- ==== Sys2Proof/Machine/Channel.lean ====
section
/-! DEFINITION. What the block does with the host's next move (spec/30_encoding.md R67; spec/70_reset_and_hazards.md R190, R194). -/

namespace Sys2Proof.Machine

/-- R67: a frame that decodes runs its command; one that does not takes ILLEGAL_OPCODE or ILLEGAL_OPERAND (R65, R66). -/
def runFrame (f : Frame) (s : State) : Host.Outcome State Fault Refusal :=
  match decode f with
  | .ok i => exec i s
  | .error c => .next (s.takeFault c)

/-- The block takes the host's next move off the channel and does it; with no move waiting nothing happens (log 2). -/
def runMove (s : State) : Host.Outcome State Fault Refusal :=
  match s.input with
  | [] => .next s
  | .command f :: rest => runFrame f { s with input := rest }
  | .reset :: rest => .next (State.applyReset { s with input := rest })

/-- The host's next move is the command frame `f`. -/
def State.offer (s : State) (f : Frame) : State := { s with input := .command f :: s.input }

end Sys2Proof.Machine
end

