-- ==== Sys2Proof/Machine/Step.lean ====
section
/-! DEFINITION. The step function: one move of the host (spec/00_scope.md R16), and where the next command frame is placed. -/

namespace Sys2Proof.Machine

/-- One step: the host's next move, done to completion (R16, R50). -/
def step (s : State) : Host.Outcome State Fault Refusal := runMove s

/-- `s` with the frame of the table's bits as the host's next move. -/
def State.withFetchWord (s : State) (nbits w : Nat) : State := s.offer (BitVec.ofNat 72 (w % 2 ^ nbits))

end Sys2Proof.Machine
end

