-- ==== Sys2Proof/Machine/Assembler.lean ====
section
/-! DEFINITION. The assembler (spec/30_encoding.md R69, R70): one line of text to the commands it stands for. It runs on the host; a line is a list of characters. -/

namespace Sys2Proof.Machine

/-- A token of a line: a word, or the bytes of a quoted text. -/
inductive AsmToken where
  /-- A mnemonic or a number. -/
  | word (cs : List Char)
  /-- A quoted text, as ASCII bytes (R70). -/
  | text (bs : List Byte)
deriving DecidableEq, Repr

/-- `KEY` (R70): KCLR, then one KPUSH per byte; the presentation of a key that R80 describes. -/
def keySequence (K : List Byte) : List Instr := .kclr :: K.map .kpush

/-- `NEWKEY` (R70): `KEY`, then CRESET. -/
def newKeySequence (K : List Byte) : List Instr := keySequence K ++ [.creset]

/-- A finished word in front of the tokens after it. -/
def asmFlush (word : List Char) (rest : List AsmToken) : List AsmToken :=
  if word = [] then rest else .word word :: rest

/-- The tokens of a line. `word` is the word being read; `quoted` holds the bytes read of an open text. `;` starts a
comment (R69) except inside a text. A text that is not ASCII, is not closed, or touches a word is an error. -/
def asmTokens : List Char → List Char → Option (List Byte) → Option (List AsmToken)
  | [], word, none => some (asmFlush word [])
  | [], _, some _ => none
  | c :: cs, word, none =>
    if c = ';' then some (asmFlush word [])
    else if c = ' ' ∨ c = '\t' then (asmTokens cs [] none).map (asmFlush word)
    else if c = '"' then (if word = [] then asmTokens cs [] (some []) else none)
    else asmTokens cs (word ++ [c]) none
  | c :: cs, word, some bs =>
    if c = '"' then (asmTokens cs [] none).map (AsmToken.text bs :: ·)
    else if c.toNat < 128 then asmTokens cs word (some (bs ++ [BitVec.ofNat 8 c.toNat]))
    else none

/-- The value of a digit in the given base (10 or 16). -/
def asmDigit (base : Nat) (c : Char) : Option Nat :=
  let v := if '0' ≤ c ∧ c ≤ '9' then c.toNat - 48
    else if 'a' ≤ c ∧ c ≤ 'f' then c.toNat - 87
    else if 'A' ≤ c ∧ c ≤ 'F' then c.toNat - 55
    else base
  if v < base then some v else none

/-- Digits, at least one, read as an unsigned number; leading zeros mean nothing (DESIGN CHOICE, log 11). Any other character is an assembly error, `_` among them: R11 allows
`_` as a digit separator in the hexadecimal of the spec's text, R69 does not say whether it may stand in an assembler's
number (DESIGN CHOICE, log 11). -/
def asmDigits (base : Nat) (cs : List Char) : Option Nat :=
  if cs = [] then none
  else cs.foldl (fun acc c => acc.bind fun n => (asmDigit base c).map (base * n + ·)) (some 0)

/-- "a decimal or `0x` hexadecimal unsigned number" (R69). -/
def asmNumber : List Char → Option Nat
  | '0' :: 'x' :: cs => asmDigits 16 cs
  | cs => asmDigits 10 cs

/-- A byte of KEYX, in hexadecimal with or without `0x` (R70; log 11). -/
def asmHexByte (cs : List Char) : Option Byte :=
  let v := match cs with
    | '0' :: 'x' :: ds => asmDigits 16 ds
    | ds => asmDigits 16 ds
  v.bind fun n => if n < 256 then some (BitVec.ofNat 8 n) else none

/-- Mnemonic, format and command of each row (R64, R69). -/
def asmRows : List (List Char × Format × (Nat → Instr)) :=
  [ (['N','O','P'], .N, fun _ => .nop),
    (['K','C','L','R'], .N, fun _ => .kclr),
    (['K','P','U','S','H'], .B, fun v => .kpush (BitVec.ofNat 8 v)),
    (['K','P','U','S','H','W'], .Q, fun v => .kpushw (BitVec.ofNat 64 v)),
    (['M','H','A','S','H'], .D, fun v => .mhash (BitVec.ofNat 32 v)),
    (['R','H','A','S','H'], .Q, fun v => .rhash (BitVec.ofNat 64 v)),
    (['G','E','T','B','I','T'], .D, fun v => .getbit (BitVec.ofNat 32 v)),
    (['C','R','E','S','E','T'], .N, fun _ => .creset),
    (['R','D','C','U','R'], .N, fun _ => .rdcur),
    (['R','D','W'], .D, fun v => .rdw (BitVec.ofNat 32 v)),
    (['R','D','K','L','E','N'], .N, fun _ => .rdklen),
    (['R','D','C','F','G'], .B, fun v => .rdcfg (BitVec.ofNat 8 v)),
    (['R','D','E','R','R'], .N, fun _ => .rderr) ]

/-- The mnemonic of a command, in upper case (R64, R69). -/
def asmMnemonic : Instr → List Char
  | .nop => ['N','O','P']
  | .kclr => ['K','C','L','R']
  | .kpush _ => ['K','P','U','S','H']
  | .kpushw _ => ['K','P','U','S','H','W']
  | .mhash _ => ['M','H','A','S','H']
  | .rhash _ => ['R','H','A','S','H']
  | .getbit _ => ['G','E','T','B','I','T']
  | .creset => ['C','R','E','S','E','T']
  | .rdcur => ['R','D','C','U','R']
  | .rdw _ => ['R','D','W']
  | .rdklen => ['R','D','K','L','E','N']
  | .rdcfg _ => ['R','D','C','F','G']
  | .rderr => ['R','D','E','R','R']

/-- One command (R69): format N takes no operand, the others take one that fits: "An operand too wide for its format is
an assembly error, never truncated". That an operand given to format N, or missing in another format, is an assembly
error is the model's reading (DESIGN CHOICE, log 11). -/
def asmCommand (m : List Char) (operand : Option Nat) : Option Instr :=
  match asmRows.lookup m, operand with
  | some (.N, mk), none => some (mk 0)
  | some (.N, _), some _ => none
  | some (fmt, mk), some v => if fmt.fits v then some (mk v) else none
  | some (_, _), none => none
  | none, _ => none

/-- The bytes of a KEYX line; any token that is not a byte is an error. -/
def asmHexBytes : List AsmToken → Option (List Byte)
  | [] => some []
  | .word w :: ts => (asmHexByte w).bind fun b => (asmHexBytes ts).map (b :: ·)
  | .text _ :: _ => none

/-- A line of text (R69, R70): no command for a blank or comment line, one for a command, several for a
pseudo-command; `none` is an assembly error. -/
def asmLine (line : List Char) : Option (List Instr) :=
  match asmTokens line [] none with
  | none => none
  | some [] => some []
  | some (.word w :: ts) =>
    if w = ['K','E','Y'] then (match ts with | [.text bs] => some (keySequence bs) | _ => none)
    else if w = ['N','E','W','K','E','Y'] then (match ts with | [.text bs] => some (newKeySequence bs) | _ => none)
    else if w = ['K','E','Y','X'] then (if ts = [] then none else (asmHexBytes ts).map keySequence)
    else match ts with
      | [] => (asmCommand w none).map ([·])
      | [.word o] => ((asmNumber o).bind fun v => asmCommand w (some v)).map ([·])
      | _ => none
  | some (.text _ :: _) => none

/-- A program, one line after another (R69). -/
def assemble : List (List Char) → Option (List Instr)
  | [] => some []
  | l :: ls => (asmLine l).bind fun is => (assemble ls).map (is ++ ·)

end Sys2Proof.Machine
end

