-- ==== Sys2Proof/Machine/HostClient.lean ====
section
/-! DEFINITION. The host's reference client (spec/45_host_selector.md R150 to R166): the Decision-Tree Selector, the Pool Limit and the entry points. It is software outside the block (00_scope.md R5) and reaches the block only through `step`. -/

namespace Sys2Proof.Machine

/-- Why the client has no bucket to return, other than the pool size (R162, last paragraph). -/
inductive HostFailure where
  /-- The block answered with a fault status. -/
  | blockFault (c : CommandFault)
  /-- The bit index does not fit GETBIT's 32-bit operand (R150). -/
  | operandTooWide
  /-- The block returned no response: it always does (R61), so no run ends so. -/
  | noReply
deriving DecidableEq, Repr

/-- What the host gets for one command. -/
inductive HostReply where
  /-- An OK response's data. -/
  | answer (d : Word)
  /-- No result. -/
  | failed (f : HostFailure)
deriving DecidableEq, Repr

/-- What the client gets for one bit. -/
inductive BitReply where
  /-- The bit. -/
  | bit (b : Bool)
  /-- No result. -/
  | failed (f : HostFailure)
deriving DecidableEq, Repr

/-- The end of one attempt's level tests (R158). -/
inductive LevelResult where
  /-- A 1-bit at depth `d` and position `a`. -/
  | found (d a : Nat)
  /-- `d` reached 0. -/
  | bottom
  /-- No result. -/
  | failed (f : HostFailure)
deriving DecidableEq, Repr

/-- The end of one candidate's construction (R159). -/
inductive CandidateResult where
  /-- The candidate `num` and the position after it. -/
  | candidate (num a : Nat)
  /-- No result. -/
  | failed (f : HostFailure)
deriving DecidableEq, Repr

/-- What the client returns. -/
inductive SelectResult where
  /-- The bucket (R152). -/
  | bucket (n : Nat)
  /-- INVALID_POOL_SIZE (R153). -/
  | invalidPoolSize
  /-- The client reports the failure and returns no bucket (R162). -/
  | failed (f : HostFailure)
deriving DecidableEq, Repr

/-- Pool Limit (R151): `MAX_POOL_SIZE = 2^SHIFT`; issues no command. -/
def maximumPoolSize (h : HostConfig) : Nat := 2 ^ h.shift

/-- R162's depth loop, with fuel. -/
def depthLoop (m : Nat) : Nat → Nat → Nat
  | 0, d => d
  | fuel + 1, d => if 2 ^ d < m then depthLoop m fuel (d + 1) else d

/-- "smallest integer such that `2^d ≥ m`" (R156); `m` turns are enough. -/
def treeDepth (m : Nat) : Nat := depthLoop m m 0

/-- The level tests of one attempt (R158): from depth `d` and position `a`, back to the next lower depth at each 0-bit.
`ask` answers GETBIT and carries the state of whoever answers. -/
def levelTest {σ : Type} (ask : Nat → σ → BitReply × σ) : Nat → Nat → σ → LevelResult × σ
  | 0, _, s => (.bottom, s)
  | d + 1, a, s =>
    match ask a s with
    | (.bit true, s') => (.found (d + 1) a, s')
    | (.bit false, s') => levelTest ask d d s'
    | (.failed f, s') => (.failed f, s')

/-- The candidate's bits (R159): `count` more bits from position `a`, `SHIFT` apart. -/
def collectBits {σ : Type} (ask : Nat → σ → BitReply × σ) (shift : Nat) : Nat → Nat → Nat → σ → CandidateResult × σ
  | 0, a, num, s => (.candidate num a, s)
  | count + 1, a, num, s =>
    match ask a s with
    | (.bit b, s') => collectBits ask shift count (a + shift) (2 * num + b.toNat) s'
    | (.failed f, s') => (.failed f, s')

/-- The attempts (R158 to R161): `tries` more of them from depth `d` and position `a`. A rejected attempt leaves `d` and
the position where it stopped. -/
def attempts {σ : Type} (ask : Nat → σ → BitReply × σ) (shift m : Nat) : Nat → Nat → Nat → σ → SelectResult × σ
  | 0, _, _, s => (.bucket 0, s)
  | tries + 1, d, a, s =>
    match levelTest ask d a s with
    | (.bottom, s') => (.bucket 0, s')
    | (.failed f, s') => (.failed f, s')
    | (.found d' a', s') =>
      match collectBits ask shift (d' - 1) (a' + shift) 1 s' with
      | (.failed f, s'') => (.failed f, s'')
      | (.candidate num a'', s'') =>
        if num < m then (.bucket num, s'') else attempts ask shift m tries d' a'' s''

/-- R162 without the CRESET (R155 allows skipping it when the block is cache-valid for the current key), whoever
answers the bits. -/
def selectWith {σ : Type} (ask : Nat → σ → BitReply × σ) (h : HostConfig) (m : Nat) (s : σ) : SelectResult × σ :=
  if maximumPoolSize h < m then (.invalidPoolSize, s)
  else if m ≤ 1 then (.bucket 0, s)
  else attempts ask h.shift m h.maxTries (treeDepth m) (treeDepth m) s

/-- One command and its response (R50, R194): the frame is the host's next move, the block takes one step, and the
response is the one just returned. -/
def hostCall (i : Instr) (s : State) : HostReply × State :=
  match step (s.offer (encode i)) with
  | .next t =>
    match t.output.getLast? with
    | some { status := .ok, data := d } => (.answer d, t)
    | some { status := .fault c, data := _ } => (.failed (.blockFault c), t)
    | none => (.failed .noReply, t)
  | .fault _ => (.failed .noReply, s)
  | .refused _ => (.failed .noReply, s)

/-- Commands one after another, until one does not answer OK. -/
def hostCalls : List Instr → State → Option HostFailure × State
  | [], s => (none, s)
  | i :: is, s =>
    match hostCall i s with
    | (.answer _, t) => hostCalls is t
    | (.failed f, t) => (some f, t)

/-- `GETBIT(a)` of R162: the frame `GETBIT a` and `data[0]` of an OK response; an index wider than the operand is never
truncated. -/
def askBlock (a : Nat) (s : State) : BitReply × State :=
  if a < 2 ^ 32 then
    match hostCall (.getbit (BitVec.ofNat 32 a)) s with
    | (.answer d, t) => (.bit (d.getLsbD 0), t)
    | (.failed f, t) => (.failed f, t)
  else (.failed .operandTooWide, s)

/-- `select_bucket_with_cache` on the key already loaded, without CRESET (R155, R163). -/
def selectBucketWithCache (h : HostConfig) (m : Nat) (s : State) : SelectResult × State := selectWith askBlock h m s

/-- R162 on the key already loaded, with the CRESET. -/
def selectBucket (h : HostConfig) (m : Nat) (s : State) : SelectResult × State :=
  if maximumPoolSize h < m then (.invalidPoolSize, s)
  else if m ≤ 1 then (.bucket 0, s)
  else
    match hostCall .creset s with
    | (.answer _, t) => selectBucketWithCache h m t
    | (.failed f, t) => (.failed f, t)

/-- `select_bucket(key_bytes, pool_size)` (R163): load the key, then R162 with the CRESET. A pool size that R153 or R154
settles sends no frame. -/
def selectBucketOfKey (h : HostConfig) (K : List Byte) (m : Nat) (s : State) : SelectResult × State :=
  if maximumPoolSize h < m then (.invalidPoolSize, s)
  else if m ≤ 1 then (.bucket 0, s)
  else
    match hostCalls (keySequence K) s with
    | (none, t) => selectBucket h m t
    | (some f, t) => (.failed f, t)

/-- A party that knows the whole stream of key `K` (R120, R121) and answers any bit of it. -/
def askStream (seed : BitVec 32) (K : List Byte) (a : Nat) (u : Unit) : BitReply × Unit := (.bit (streamBit seed K a), u)

/-- The bucket of key `K` in a pool of `m`, as a function of the key's bits alone: R162 read against R121, with no block. -/
def bucketOf (seed : BitVec 32) (h : HostConfig) (K : List Byte) (m : Nat) : SelectResult :=
  (selectWith (askStream seed K) h m ()).1

end Sys2Proof.Machine
end

