-- ==== Sys2Proof/Safety.lean ====
section
/-! DEFINITION. The terms claims use: the states the spec allows, the cache invariant (spec/10_state.md R23), states no host can tell apart (spec/70_reset_and_hazards.md R192), runs without a fault (spec/60_exceptions.md R173). -/

namespace Sys2Proof.Machine

/-- `KLEN ≤ KEY_CAP` (R25); every byte below `KLEN` has been written and nothing lies outside the key space (R24, R30);
the storage is in canonical form. -/
def State.keyLegal (s : State) : Bool :=
  decide (s.klen.toNat ≤ s.cfg.keyCap) && Memory.wf s.key &&
    s.key.all (fun c => decide (c.1 < s.cfg.keyCap)) &&
    (List.range s.klen.toNat).all (fun a => (Cells.read? (w := 8) s.key a).isSome)

/-- `CUR` is none or below `CACHE_WORDS` (R22); every entry up to it has been written and nothing lies outside the index
space (R21, R30); the storage is in canonical form. -/
def State.cacheLegal (s : State) : Bool :=
  decide (firstMissing s.cur ≤ s.cfg.cacheWords) && Cells.wf s.words &&
    s.words.all (fun c => decide (c.1 < s.cfg.cacheWords)) &&
    (List.range (firstMissing s.cur)).all (fun n => (Cells.read? s.words n).isSome)

/-- A state the spec allows: parameters in range (R8), `KEY`/`KLEN` (R24, R25), `W`/`CUR` (R21, R22), `ERR` (R26). -/
def State.legal (s : State) : Bool :=
  s.cfg.wf && s.keyLegal && s.cacheLegal && errLegal s.err

/-- `W[n] = S_n(K)` for every `n ≤ CUR` (R23). -/
abbrev State.CacheHolds (s : State) (K : List Byte) : Prop :=
  ∀ n, n < firstMissing s.cur → s.word n = streamWord s.cfg.seed K n

/-- R23's invariant: the cache holds the stream of some key. -/
def State.CacheValid (s : State) : Prop := ∃ K, s.CacheHolds K

/-- Cache-valid for the current key (R23): also true when `CUR` is none. -/
abbrev State.CacheValidNow (s : State) : Prop := s.CacheHolds s.keyBytes

/-- Two states that differ at most in what no command may read: `KEY` at and beyond `KLEN`, `W` beyond `CUR` (R192). -/
structure State.Alike (s t : State) : Prop where
  cfg : s.cfg = t.cfg
  cur : s.cur = t.cur
  klen : s.klen = t.klen
  err : s.err = t.err
  input : s.input = t.input
  output : s.output = t.output
  keyByte : ∀ a, a < s.klen.toNat → s.keyByte a = t.keyByte a
  word : ∀ n, n < firstMissing s.cur → s.word n = t.word n

/-- No command has faulted since reset: "the "no fault recorded" bit every claim takes as a premise" (R173). -/
def State.noFault (s : State) : Bool := !errF s.err

/-- `k` steps of the host's machine. -/
def run (k : Nat) (s : State) : Host.Outcome State Fault Refusal := Host.Core.run Sys2Proof.core k s

/-- A safe run: `k` steps from `s` end in `t` with no fault recorded. -/
def SafeRun (k : Nat) (s t : State) : Prop := run k s = .next t ∧ t.noFault = true

end Sys2Proof.Machine
end

