-- ==== Sys2Proof/Certificates/Slice0/Obligations.lean ====
section
/-! DEFINITION. The statements for the provers, from the spec's numbered rules. -/

open Sys2Proof Sys2Proof.Machine

/- Encoding -/

/-- R64, R67: decoding a command's frame gives the command back, with every operand at every value. -/
def Obligations.DecodeOfEncode : Prop := ∀ i : Instr, decode (encode i) = .ok i

/-- R64, R67: a frame that decodes is the frame of the command it decodes to: each frame has one meaning. -/
def Obligations.EncodeOfDecode : Prop := ∀ (f : Frame) (i : Instr), decode f = .ok i → encode i = f

/-- R64: a frame selects the row of `j` (`f & mask = match`) exactly when it decodes to a command of that row. -/
def Obligations.DecodeSelectsMatchingRow : Prop :=
  ∀ (f : Frame) (j : Instr),
    f &&& j.format.rowMask = j.rowMatch ↔ ∃ i, decode f = .ok i ∧ i.opcode = j.opcode

/-- R64, written out: frames of all four formats. -/
def Obligations.TableWordsDecode : Prop :=
  decodeTableWord 72 0x000000000000000000 = some .nop ∧
  decodeTableWord 72 0x02000000000000006A = some (.kpush 0x6A#8) ∧
  decodeTableWord 72 0x030123456789ABCDEF = some (.kpushw 0x0123456789ABCDEF#64) ∧
  decodeTableWord 72 0x0400000000F9F198EF = some (.mhash 0xF9F198EF#32) ∧
  decodeTableWord 72 0x060000000000000046 = some (.getbit 70#32) ∧
  decodeTableWord 72 0x0C0000000000000000 = some .rderr ∧
  decodeTableWord 72 0x0D0000000000000000 = none ∧
  decodeTableWord 72 0x060000000100000000 = none

/-- R65: any frame with a reserved opcode takes ILLEGAL_OPCODE (code 1) in every state and changes no state but `ERR`. -/
def Obligations.ReservedOpcodeFaults : Prop :=
  CommandFault.illegalOpcode.code = 0x01#8 ∧
  ∀ (s : State) (f : Frame) (rest : List HostMove), s.input = .command f :: rest → 0x0C < (frameOp f).toNat →
    step s = .next { s with
      input := rest
      err := latchErr s.err .illegalOpcode
      output := s.output ++ [{ status := .fault .illegalOpcode, data := 0#64 }] }

/-- R66: an assigned opcode with a non-zero reserved operand bit takes ILLEGAL_OPERAND (code 2) in every state and
changes no state but `ERR`; so does RDCFG with a selector that names no constant. -/
def Obligations.IllegalOperandFaults : Prop :=
  CommandFault.illegalOperand.code = 0x02#8 ∧
  (∀ (s : State) (f : Frame) (rest : List HostMove) (j : Instr), s.input = .command f :: rest →
    frameOp f = j.opcode → f &&& j.format.rowMask ≠ j.rowMatch →
    step s = .next { s with
      input := rest
      err := latchErr s.err .illegalOperand
      output := s.output ++ [{ status := .fault .illegalOperand, data := 0#64 }] }) ∧
  (∀ (s : State) (sel : BitVec 8), 2 < sel.toNat →
    exec (.rdcfg sel) s = .next { s with
      err := latchErr s.err .illegalOperand
      output := s.output ++ [{ status := .fault .illegalOperand, data := 0#64 }] })

/-- R69: the assembler never truncates: an assembled operand is the number written, and one too wide is an error. Said of
the command and its number, and of the line of text: the mnemonic, a blank, decimal digits or `0x` and upper-case
hexadecimal digits, then perhaps a comment. THE MODEL'S CHOICE where R69 says nothing (DESIGN CHOICE, log 11): that the
digits may begin with zeros, in either base, and that a line with an operand its format does not take, or without one it
takes, is an assembly error. -/
def Obligations.AssemblerNeverTruncates : Prop :=
  (∀ (m : List Char) (v : Nat) (i : Instr), asmCommand m (some v) = some i → i.arg.toNat = v) ∧
  (∀ (m : List Char) (fmt : Format) (mk : Nat → Instr) (v : Nat), asmRows.lookup m = some (fmt, mk) →
    2 ^ fmt.operandBits ≤ v → asmCommand m (some v) = none) ∧
  (∀ (i : Instr) (base : Nat) (pre tail : List Char) (ds : List Nat),
    (base = 10 ∧ pre = []) ∨ (base = 16 ∧ pre = ['0', 'x']) → ds ≠ [] → (∀ d ∈ ds, d < base) →
    tail = [] ∨ (∃ c, tail = ' ' :: ';' :: c) →
    (i.format ≠ .N → Nat.ofDigits base ds.reverse = i.arg.toNat →
      asmLine (asmMnemonic i ++ ' ' :: (pre ++ ds.map (fun d => (Nat.digitChar d).toUpper) ++ tail)) = some [i]) ∧
    (2 ^ i.format.operandBits ≤ Nat.ofDigits base ds.reverse →
      asmLine (asmMnemonic i ++ ' ' :: (pre ++ ds.map (fun d => (Nat.digitChar d).toUpper) ++ tail)) = none) ∧
    (i.format = .N →
      asmLine (asmMnemonic i ++ ' ' :: (pre ++ ds.map (fun d => (Nat.digitChar d).toUpper) ++ tail)) = none) ∧
    (i.format = .N → asmLine (asmMnemonic i ++ tail) = some [i]) ∧
    (i.format ≠ .N → asmLine (asmMnemonic i ++ tail) = none))

/- The step -/

/-- A step whose next move is a frame that decodes runs the decoded command on the state with that move taken off the
channel; nothing else is added around `exec` (R27: no program counter). -/
def Obligations.StepRunsDecodedCommand : Prop :=
  ∀ (s : State) (f : Frame) (rest : List HostMove) (i : Instr), s.input = .command f :: rest → decode f = .ok i →
    step s = exec i { s with input := rest }

/-- R17, R61, R67: every frame, in every state, gives a next state with exactly one response more, its data zero when
the status is not OK; the move is used up and the parameters stay. -/
def Obligations.EveryFrameGetsOneResponse : Prop :=
  ∀ (s : State) (f : Frame) (rest : List HostMove), s.input = .command f :: rest →
    ∃ t r, step s = .next t ∧ t.output = s.output ++ [r] ∧ (r.status ≠ .ok → r.data = 0#64) ∧
      t.input = rest ∧ t.cfg = s.cfg

/-- R17, R50: from every state the host's whole list of moves runs to its end, one response per command. -/
def Obligations.EveryMoveListRunsToItsEnd : Prop :=
  ∀ s : State, ∃ t, run s.input.length s = .next t ∧ t.input = [] ∧
    t.output.length = s.output.length + (s.input.filter (fun m => m != HostMove.reset)).length

/-- R190, R191: RST leaves the reset values whatever the state before; `W` and `KEY` have no value again (the model's
choice of form, log 4 and log 5). -/
def Obligations.ResetMoveRestoresResetState : Prop :=
  ∀ (s : State) (rest : List HostMove), s.input = .reset :: rest →
    step s = .next { State.resetWith s.cfg with input := rest, output := s.output }

/-- R31: the reset values, for every choice of parameters; no cell of `W` or `KEY` has a value (log 4). -/
def Obligations.ResetStateValues : Prop :=
  ∀ c : Config, (State.resetWith c).cur = none ∧ (State.resetWith c).klen = 0#32 ∧ (State.resetWith c).err = 0x0000#16 ∧
    (∀ n, Cells.read? (State.resetWith c).words n = none) ∧
    (∀ a, Cells.read? (w := 8) (State.resetWith c).key a = none)

/-- R32: what each command may write; everything else stays. -/
def Obligations.CommandsWriteOnlyTheirState : Prop :=
  ∀ (i : Instr) (s t : State), exec i s = .next t →
    t.cfg = s.cfg ∧ t.input = s.input ∧
    ((∀ j, i ≠ .getbit j) → t.words = s.words) ∧
    ((∀ j, i ≠ .getbit j) → i ≠ .creset → t.cur = s.cur) ∧
    ((∀ b, i ≠ .kpush b) → (∀ w, i ≠ .kpushw w) → t.key = s.key) ∧
    ((∀ b, i ≠ .kpush b) → (∀ w, i ≠ .kpushw w) → i ≠ .kclr → t.klen = s.klen) ∧
    (∀ d, t.output = s.output ++ [{ status := .ok, data := d }] → t.err = s.err)

/- Faults -/

/-- R172: a faulting command changes nothing but `ERR`, and its response is the code with data 0. -/
def Obligations.FaultChangesOnlyTheLatch : Prop :=
  ∀ (s t : State) (f : Frame) (rest : List HostMove) (r : Response) (c : CommandFault),
    s.input = .command f :: rest → step s = .next t → t.output = s.output ++ [r] → r.status = .fault c →
    r.data = 0#64 ∧
    t = { s with
      input := rest
      err := latchErr s.err c
      output := s.output ++ [{ status := .fault c, data := 0#64 }] }

/-- R173: the latch takes the first fault's code and keeps it until reset, and gates nothing. -/
def Obligations.LatchKeepsFirstCause : Prop :=
  (∀ (e : BitVec 16) (c : CommandFault), errF e = false →
    latchErr e c = (c.code.setWidth 16 <<< 8) ||| 1#16 ∧ errF (latchErr e c) = true ∧ errCause (latchErr e c) = c.code) ∧
  (∀ (e : BitVec 16) (c : CommandFault), errF e = true → latchErr e c = e) ∧
  (∀ s t : State, step s = .next t → (∀ rest, s.input ≠ .reset :: rest) → errF s.err = true → t.err = s.err) ∧
  (∀ (i : Instr) (s t : State) (e : BitVec 16), i ≠ .rderr → exec i s = .next t →
    ∃ e', exec i { s with err := e } = .next { t with err := e' })

/-- R171: the exact condition of every fault a decoded command can raise. -/
def Obligations.FaultCausesExactly : Prop :=
  ∀ (i : Instr) (s t : State) (r : Response), exec i s = .next t → t.output = s.output ++ [r] →
    (r.status ≠ .fault .illegalOpcode) ∧
    (r.status = .fault .illegalOperand ↔ ∃ sel, i = .rdcfg sel ∧ 2 < sel.toNat) ∧
    (r.status = .fault .keyOverflow ↔
      (∃ b, i = .kpush b ∧ s.cfg.keyCap < s.klen.toNat + 1) ∨ (∃ w, i = .kpushw w ∧ s.cfg.keyCap < s.klen.toNat + 8)) ∧
    (r.status = .fault .cacheRange ↔ ∃ j, i = .getbit j ∧ s.cfg.cacheWords ≤ j.toNat / 64) ∧
    (r.status = .fault .wordInvalid ↔
      ∃ n, i = .rdw n ∧ (s.cur = none ∨ ∃ c, s.cur = some c ∧ c < n.toNat))

/-- R26: the fields of every legal value of `ERR`: bits [7:1] zero, `CAUSE` 0 while `F = 0`, else a code from 1 to 5. -/
def Obligations.LegalLatchFields : Prop :=
  ∀ e : BitVec 16, errLegal e = true →
    e.extractLsb' 1 7 = 0#7 ∧ (errF e = false → errCause e = 0#8) ∧
    (errF e = true → 1 ≤ (errCause e).toNat ∧ (errCause e).toNat ≤ 5)

/- System commands -/

/-- R141: NOP answers 0 and writes nothing; the all-zero frame is the only NOP. -/
def Obligations.NopAnswersZero : Prop :=
  encode .nop = 0x000000000000000000#72 ∧
  (∀ s : State, exec .nop s = .next { s with output := s.output ++ [{ status := .ok, data := 0#64 }] }) ∧
  (∀ f : Frame, frameOp f = 0x00#8 → frameArg f ≠ 0#64 → decode f = .error .illegalOperand)

/-- R142: RDCFG answers SEED, CACHE_WORDS, KEY_CAP for selectors 0, 1, 2 and faults for any other; no step changes the
parameters. -/
def Obligations.RdcfgReadsConstants : Prop :=
  (∀ s : State,
    exec (.rdcfg 0#8) s = .next { s with output := s.output ++ [{ status := .ok, data := s.cfg.seed.setWidth 64 }] }) ∧
  (∀ s : State, s.cfg.wf = true → ∃ d : Word, d.toNat = s.cfg.cacheWords ∧
    exec (.rdcfg 1#8) s = .next { s with output := s.output ++ [{ status := .ok, data := d }] }) ∧
  (∀ s : State, s.cfg.wf = true → ∃ d : Word, d.toNat = s.cfg.keyCap ∧
    exec (.rdcfg 2#8) s = .next { s with output := s.output ++ [{ status := .ok, data := d }] }) ∧
  (∀ (s : State) (sel : BitVec 8), 2 < sel.toNat →
    exec (.rdcfg sel) s = .next { s with
      err := latchErr s.err .illegalOperand
      output := s.output ++ [{ status := .fault .illegalOperand, data := 0#64 }] }) ∧
  (∀ f : Frame, frameOp f = 0x0B#8 → frameArg f >>> 8 ≠ 0#64 → decode f = .error .illegalOperand) ∧
  (∀ s t : State, step s = .next t → t.cfg = s.cfg)

/-- R143: RDERR answers the latch and does not clear it. -/
def Obligations.RderrReadsLatch : Prop :=
  encode .rderr = 0x0C0000000000000000#72 ∧
  (∀ s : State, exec .rderr s = .next { s with output := s.output ++ [{ status := .ok, data := s.err.setWidth 64 }] }) ∧
  (∀ f : Frame, frameOp f = 0x0C#8 → frameArg f ≠ 0#64 → decode f = .error .illegalOperand)

/- Key buffer -/

/-- R81: KCLR sets `KLEN` to 0 and writes nothing else. -/
def Obligations.KclrClearsLengthOnly : Prop :=
  encode .kclr = 0x010000000000000000#72 ∧
  (∀ s : State, exec .kclr s =
    .next { s with klen := 0#32, output := s.output ++ [{ status := .ok, data := 0#64 }] }) ∧
  (∀ f : Frame, frameOp f = 0x01#8 → frameArg f ≠ 0#64 → decode f = .error .illegalOperand)

/-- R82: KPUSH writes its byte at offset `KLEN` and raises `KLEN` by 1, or faults KEY_OVERFLOW (code 3) and writes
nothing. -/
def Obligations.KpushAppendsByte : Prop :=
  CommandFault.keyOverflow.code = 0x03#8 ∧
  (∀ b : Byte, encode (.kpush b) = 0x02#8 ++ 0#56 ++ b) ∧
  (∀ (s : State) (b : Byte), s.cfg.wf = true → s.klen.toNat + 1 ≤ s.cfg.keyCap →
    ∃ t, exec (.kpush b) s = .next t ∧ t.klen.toNat = s.klen.toNat + 1 ∧
      t.keyByte s.klen.toNat = b ∧ (∀ a, a ≠ s.klen.toNat → t.keyByte a = s.keyByte a) ∧
      t.output = s.output ++ [{ status := .ok, data := 0#64 }] ∧
      t.words = s.words ∧ t.cur = s.cur ∧ t.err = s.err ∧ t.cfg = s.cfg ∧ t.input = s.input) ∧
  (∀ (s : State) (b : Byte), s.cfg.keyCap < s.klen.toNat + 1 →
    exec (.kpush b) s = .next { s with
      err := latchErr s.err .keyOverflow
      output := s.output ++ [{ status := .fault .keyOverflow, data := 0#64 }] }) ∧
  (∀ f : Frame, frameOp f = 0x02#8 → frameArg f >>> 8 ≠ 0#64 → decode f = .error .illegalOperand)

/-- R83: KPUSHW writes byte `j` of its word at offset `KLEN + j`, `j = 0 .. 7`, and raises `KLEN` by 8, or faults
KEY_OVERFLOW and writes nothing. -/
def Obligations.KpushwAppendsWord : Prop :=
  (∀ w : Word, encode (.kpushw w) = 0x03#8 ++ w) ∧
  (∀ (s : State) (w : Word), s.cfg.wf = true → s.klen.toNat + 8 ≤ s.cfg.keyCap →
    ∃ t, exec (.kpushw w) s = .next t ∧ t.klen.toNat = s.klen.toNat + 8 ∧
      (∀ j, j < 8 → t.keyByte (s.klen.toNat + j) = w.extractLsb' (8 * j) 8) ∧
      (∀ a, a < s.klen.toNat ∨ s.klen.toNat + 8 ≤ a → t.keyByte a = s.keyByte a) ∧
      t.output = s.output ++ [{ status := .ok, data := 0#64 }] ∧
      t.words = s.words ∧ t.cur = s.cur ∧ t.err = s.err ∧ t.cfg = s.cfg ∧ t.input = s.input) ∧
  (∀ (s : State) (w : Word), s.cfg.keyCap < s.klen.toNat + 8 →
    exec (.kpushw w) s = .next { s with
      err := latchErr s.err .keyOverflow
      output := s.output ++ [{ status := .fault .keyOverflow, data := 0#64 }] })

/-- R42: one KPUSHW leaves the block as eight KPUSH of its bytes, least significant first, do. -/
def Obligations.KpushwIsEightKpush : Prop :=
  ∀ (s : State) (w : Word), s.cfg.wf = true → s.klen.toNat + 8 ≤ s.cfg.keyCap →
    ∃ t u, exec (.kpushw w) s = .next t ∧
      run 8 { s with input := (List.range 8).map fun j => .command (encode (.kpush (wordByte w j))) } = .next u ∧
      t.key = u.key ∧ t.klen = u.klen ∧ t.words = u.words ∧ t.cur = u.cur ∧ t.err = u.err

/-- R84: RDKLEN answers `KLEN` zero-extended and writes nothing. -/
def Obligations.RdklenReadsLength : Prop :=
  encode .rdklen = 0x0A0000000000000000#72 ∧
  (∀ s : State, exec .rdklen s =
    .next { s with output := s.output ++ [{ status := .ok, data := s.klen.setWidth 64 }] }) ∧
  (∀ c : Config, exec .rdklen (State.resetWith c) =
    .next { State.resetWith c with output := [{ status := .ok, data := 0#64 }] }) ∧
  (∀ f : Frame, frameOp f = 0x0A#8 → frameArg f ≠ 0#64 → decode f = .error .illegalOperand)

/-- R80: KCLR and a KPUSH per byte present the key; a key longer than `KEY_CAP` meets KEY_OVERFLOW. -/
def Obligations.KeySequencePresentsKey : Prop :=
  ∀ (s : State) (K : List Byte), s.cfg.wf = true →
    (K.length ≤ s.cfg.keyCap → ∃ t, hostCalls (keySequence K) s = (none, t) ∧
      t.klen.toNat = K.length ∧ t.keyBytes = K ∧ t.words = s.words ∧ t.cur = s.cur ∧ t.err = s.err ∧ t.cfg = s.cfg) ∧
    (s.cfg.keyCap < K.length → ∃ t, hostCalls (keySequence K) s = (some (.blockFault .keyOverflow), t))

/- Mixing Hash and Rehash Step -/

/-- R98: MHASH answers the Mixing Hash of the key presented, with its own seed, and writes nothing. -/
def Obligations.MhashHashesPresentedKey : Prop :=
  (∀ seed : BitVec 32, encode (.mhash seed) = 0x04#8 ++ 0#32 ++ seed) ∧
  (∀ (s : State) (seed : BitVec 32), exec (.mhash seed) s =
    .next { s with output := s.output ++ [{ status := .ok, data := mix64Bytes s.keyBytes seed }] }) ∧
  (∀ f : Frame, frameOp f = 0x04#8 → frameArg f >>> 32 ≠ 0#64 → decode f = .error .illegalOperand)

/-- R99: the hash reads offsets below the length only; with length 0 it reads nothing. -/
def Obligations.HashReadsOnlyTheKey : Prop :=
  ∀ (B C : Nat → Byte) (len : Nat) (seed : BitVec 32), (∀ a, a < len → B a = C a) →
    mix64 B len seed = mix64 C len seed

/-- R100: the hash of the empty key. -/
def Obligations.EmptyKeyHash : Prop :=
  (∀ (B : Nat → Byte) (seed : BitVec 32), mix64 B 0 seed = fin64 (seed.setWidth 64)) ∧
  (∀ B : Nat → Byte, mix64 B 0 0#32 = 0#64) ∧
  (∀ B : Nat → Byte, mix64 B 0 0xF9F198EF#32 = 0x4D408DE62DEE109A#64)

/-- R41, R95: the tail folds the trailing bytes as one little-endian integer, multiplies when there is any, and does
nothing when there is none. -/
def Obligations.TailIsLittleEndian : Prop :=
  ∀ (B : Nat → Byte) (o t : Nat) (h : Word), t < 8 →
    mixTail B o t h = if t = 0 then h else mul64 (h ^^^ memRead B o t) hashM

/-- R101: each step of the hash is a bijection of the 64-bit words. -/
def Obligations.HashStepsAreBijections : Prop :=
  Function.Bijective (fun x => mul64 x hashM) ∧ Function.Bijective xorShift ∧ Function.Bijective fin64 ∧
  Function.Bijective mixWord ∧ (∀ h, Function.Bijective fun k => mixRound h k) ∧
  (∀ k, Function.Bijective fun h => mixRound h k)

/-- R101: with the length, the seed and all other bytes held fixed, the hash is a bijective function of any one full
8-byte block. -/
def Obligations.HashIsBijectiveInEachBlock : Prop :=
  ∀ (B : Nat → Byte) (len n : Nat) (seed : BitVec 32), n < len / 8 →
    Function.Bijective fun w : Word =>
      mix64 (fun a => if 8 * n ≤ a ∧ a < 8 * n + 8 then wordByte w (a - 8 * n) else B a) len seed

/-- R112: RHASH answers the Rehash Step of its operand, writes nothing and depends on no state but the constant SEED. -/
def Obligations.RhashAnswersRehash : Prop :=
  (∀ w : Word, encode (.rhash w) = 0x05#8 ++ w) ∧
  (∀ (s : State) (w : Word), exec (.rhash w) s =
    .next { s with output := s.output ++ [{ status := .ok, data := rehash64 s.cfg.seed w }] }) ∧
  (∀ seed : BitVec 32, rehash64 seed 0#64 = fin64 (mul64 (seed.setWidth 64 ^^^ 0x35253C9ADE8F4CA8#64) hashM)) ∧
  mul64 0xFFFFFFFFFFFFFFFF#64 hashM = 0x395B586CA42E166B#64

/-- R111: the Rehash Step is the Mixing Hash of the word's eight little-endian bytes, as functions and on the block. -/
def Obligations.RehashIsHashOfOneBlock : Prop :=
  (∀ (seed : BitVec 32) (w : Word), rehash64 seed w = mix64 (wordByte w) 8 seed) ∧
  (∀ (s : State) (w : Word), s.cfg.wf = true → 8 ≤ s.cfg.keyCap →
    ∃ t u d, exec (.rhash w) s = .next t ∧ t.output = s.output ++ [{ status := .ok, data := d }] ∧
      run 3 { s with input := [.command (encode .kclr), .command (encode (.kpushw w)),
        .command (encode (.mhash s.cfg.seed))] } = .next u ∧
      u.output = s.output ++ [{ status := .ok, data := 0#64 }, { status := .ok, data := 0#64 }, { status := .ok, data := d }])

/-- R114: the Rehash Step is a bijection of the 64-bit words. -/
def Obligations.RehashIsBijective : Prop := ∀ seed : BitVec 32, Function.Bijective (rehash64 seed)

/- Bitstream cache -/

/-- R122: the parts of a 32-bit bit index. -/
def Obligations.BitIndexParts : Prop :=
  ∀ i : BitVec 32, bitPosition i = (i.extractLsb' 0 6).toNat ∧ bitOrder i = (i.extractLsb' 6 26).toNat ∧
    bitOrder i < 2 ^ 26

/-- R124: GETBIT's whole effect; CACHE_RANGE is code 4. -/
def Obligations.GetbitFillsAndAnswers : Prop :=
  CommandFault.cacheRange.code = 0x04#8 ∧
  (∀ i : BitVec 32, encode (.getbit i) = 0x06#8 ++ 0#32 ++ i) ∧
  (∀ (s : State) (i : BitVec 32), s.cfg.cacheWords ≤ i.toNat / 64 →
    exec (.getbit i) s = .next { s with
      err := latchErr s.err .cacheRange
      output := s.output ++ [{ status := .fault .cacheRange, data := 0#64 }] }) ∧
  (∀ (s : State) (i : BitVec 32), i.toNat / 64 < s.cfg.cacheWords →
    ∃ t, exec (.getbit i) s = .next t ∧
      t.cur = (if firstMissing s.cur ≤ i.toNat / 64 then some (i.toNat / 64) else s.cur) ∧
      (i.toNat / 64 < firstMissing s.cur → t.words = s.words) ∧
      (∀ n, n < firstMissing s.cur ∨ i.toNat / 64 < n → t.word n = s.word n) ∧
      (firstMissing s.cur = 0 → t.word 0 = mix64 s.keyByte s.klen.toNat s.cfg.seed) ∧
      (∀ n, firstMissing s.cur ≤ n + 1 → n + 1 ≤ i.toNat / 64 → t.word (n + 1) = rehash64 s.cfg.seed (t.word n)) ∧
      t.output = s.output ++ [{ status := .ok, data := (t.word (i.toNat / 64) >>> (i.toNat % 64)) &&& 1#64 }] ∧
      t.key = s.key ∧ t.klen = s.klen ∧ t.err = s.err ∧ t.cfg = s.cfg ∧ t.input = s.input) ∧
  (∀ f : Frame, frameOp f = 0x06#8 → frameArg f >>> 32 ≠ 0#64 → decode f = .error .illegalOperand)

/-- R127: from a state whose cache holds the stream of `K`, GETBIT answers the bit of `K`, keeps the cache valid for `K`
and moves the cursor to the larger of itself and the order. With `K` the current key this is the cache-valid case; with
an old key it is the stale one. -/
def Obligations.GetbitAnswersStreamBit : Prop :=
  ∀ (s : State) (K : List Byte) (i : BitVec 32), s.CacheHolds K → (s.cur = none → K = s.keyBytes) →
    i.toNat / 64 < s.cfg.cacheWords →
    ∃ t, exec (.getbit i) s = .next t ∧
      t.output = s.output ++ [{ status := .ok, data := if streamBit s.cfg.seed K i.toNat then 1#64 else 0#64 }] ∧
      t.CacheHolds K ∧ firstMissing t.cur = max (firstMissing s.cur) (i.toNat / 64 + 1) ∧ t.keyBytes = s.keyBytes

/-- R125: no recomputation: cached words keep their value, a GETBIT at or below the cursor writes nothing, and a second
GETBIT of the same index answers the same and changes nothing. -/
def Obligations.GetbitNeverRecomputes : Prop :=
  ∀ (s t : State) (i : BitVec 32), exec (.getbit i) s = .next t →
    (∀ n, n < firstMissing s.cur → t.word n = s.word n) ∧
    (i.toNat / 64 < firstMissing s.cur → t.words = s.words ∧ t.cur = s.cur) ∧
    (i.toNat / 64 < s.cfg.cacheWords → ∃ r, t.output = s.output ++ [r] ∧ r.status = .ok ∧
      exec (.getbit i) t = .next { t with output := t.output ++ [r] })

/-- R126: once word 0 exists, GETBIT does not look at the key buffer. -/
def Obligations.GetbitIgnoresKeyOnceCached : Prop :=
  ∀ (s t : State) (i : BitVec 32) (c : Nat) (m : Memory) (k : BitVec 32), s.cur = some c →
    exec (.getbit i) s = .next t → exec (.getbit i) { s with key := m, klen := k } = .next { t with key := m, klen := k }

/-- R22, R125: but for CRESET and RST, no step lowers the cursor or changes a cached word. -/
def Obligations.OnlyCresetAndResetLowerCursor : Prop :=
  ∀ s t : State, step s = .next t → (∀ rest, s.input ≠ .reset :: rest) →
    (∀ f rest, s.input = .command f :: rest → decode f ≠ .ok .creset) →
    firstMissing s.cur ≤ firstMissing t.cur ∧ ∀ n, n < firstMissing s.cur → t.word n = s.word n

/-- R128: CRESET sets the cursor to none and writes nothing else. -/
def Obligations.CresetClearsCursorOnly : Prop :=
  encode .creset = 0x070000000000000000#72 ∧
  (∀ s : State, exec .creset s =
    .next { s with cur := none, output := s.output ++ [{ status := .ok, data := 0#64 }] }) ∧
  (∀ f : Frame, frameOp f = 0x07#8 → frameArg f ≠ 0#64 → decode f = .error .illegalOperand)

/-- R55: after CRESET nothing cached before can be seen again: runs that begin with CRESET from states that differ only
in `W` and `CUR` give the same responses for ever. -/
def Obligations.CresetForgetsTheCache : Prop :=
  ∀ (s : State) (words : Cells 64) (cur : Option Nat) (k : Nat), ∃ t u,
    run k { s with input := .command (encode .creset) :: s.input } = .next t ∧
    run k { s with words := words, cur := cur, input := .command (encode .creset) :: s.input } = .next u ∧
    t.output = u.output

/-- R129: RDCUR answers the cursor, none as -1, and writes nothing. -/
def Obligations.RdcurReadsCursor : Prop :=
  encode .rdcur = 0x080000000000000000#72 ∧
  (∀ s : State, s.cur = none → exec .rdcur s =
    .next { s with output := s.output ++ [{ status := .ok, data := BitVec.ofInt 64 (-1) }] }) ∧
  (∀ (s : State) (c : Nat), s.cur = some c → c < 2 ^ 64 → ∃ d : Word, d.toNat = c ∧
    exec .rdcur s = .next { s with output := s.output ++ [{ status := .ok, data := d }] }) ∧
  (∀ c : Config, (State.resetWith c).cur = none) ∧ (∀ s t : State, exec .creset s = .next t → t.cur = none) ∧
  (∀ (s : State) (c : Nat), s.legal = true → s.cur = some c → c ≤ s.cfg.cacheWords - 1) ∧
  (∀ f : Frame, frameOp f = 0x08#8 → frameArg f ≠ 0#64 → decode f = .error .illegalOperand)

/-- R130: RDW answers a cached word and writes nothing, or faults WORD_INVALID (code 5) beyond the cursor, which from every legal
state includes every index at or beyond `CACHE_WORDS`. -/
def Obligations.RdwReadsOnlyValidWords : Prop :=
  CommandFault.wordInvalid.code = 0x05#8 ∧
  (∀ n : BitVec 32, encode (.rdw n) = 0x09#8 ++ 0#32 ++ n) ∧
  (∀ (s : State) (n : BitVec 32) (c : Nat), s.cur = some c → n.toNat ≤ c →
    exec (.rdw n) s = .next { s with output := s.output ++ [{ status := .ok, data := s.word n.toNat }] }) ∧
  (∀ (s : State) (n : BitVec 32), (s.cur = none ∨ ∃ c, s.cur = some c ∧ c < n.toNat) →
    exec (.rdw n) s = .next { s with
      err := latchErr s.err .wordInvalid
      output := s.output ++ [{ status := .fault .wordInvalid, data := 0#64 }] }) ∧
  (∀ (s : State) (n : BitVec 32), s.legal = true → s.cfg.cacheWords ≤ n.toNat →
    s.cur = none ∨ ∃ c, s.cur = some c ∧ c < n.toNat) ∧
  (∀ f : Frame, frameOp f = 0x09#8 → frameArg f >>> 32 ≠ 0#64 → decode f = .error .illegalOperand)

/-- R45: a reading command that answers OK changes no state, and repeating it answers the same. -/
def Obligations.ReadCommandsRepeat : Prop :=
  ∀ (i : Instr) (s t : State) (r : Response),
    (i = .rdcur ∨ i = .rdklen ∨ i = .rderr ∨ (∃ seed, i = .mhash seed) ∨ (∃ n, i = .rdw n) ∨ (∃ sel, i = .rdcfg sel)) →
    exec i s = .next t → t.output = s.output ++ [r] → r.status = .ok →
    t = { s with output := s.output ++ [r] } ∧ exec i t = .next { t with output := t.output ++ [r] }

/- Invariants -/

/-- Reset leaves a legal state with a valid cache, for every choice of parameters in R8's ranges. That reset lists no cell
is the model's choice (DESIGN CHOICE, log 4). -/
def Obligations.ResetIsLegal : Prop :=
  ∀ c : Config, c.wf = true → (State.resetWith c).legal = true ∧ (State.resetWith c).CacheValid

/-- Every step from a legal state leads to a legal state. From the spec: parameters in range (R8), `KLEN ≤ KEY_CAP` (R25),
every byte below `KLEN` written (R24), `CUR < CACHE_WORDS` (R22), every word up to `CUR` written (R21), nothing outside
the two spaces (R30), `ERR` legal (R26). THE MODEL'S CHOICE, not the spec's (DESIGN CHOICE, log 4): that a cell is written
when it is listed, and that both listings are in canonical form. -/
def Obligations.StepKeepsLegal : Prop :=
  ∀ s t : State, s.legal = true → step s = .next t → t.legal = true

/-- R23: every step keeps the cache invariant, for the key `W[0]` was computed from. If the cache holds the stream of `K`,
where `K` is the current key when nothing is cached, then whatever is cached after the step is the stream of that same
`K`; CRESET and RST leave nothing cached; so the cache always holds the stream of some key. -/
def Obligations.StepKeepsCacheValid : Prop :=
  (∀ (s t : State) (K : List Byte), s.CacheHolds K → (s.cur = none → K = s.keyBytes) → step s = .next t →
    t.cur ≠ none → t.CacheHolds K) ∧
  (∀ (s t : State) (rest : List HostMove), s.input = .reset :: rest → step s = .next t → t.cur = none) ∧
  (∀ (s t : State) (f : Frame) (rest : List HostMove), s.input = .command f :: rest → decode f = .ok .creset →
    step s = .next t → t.cur = none) ∧
  (∀ s t : State, s.CacheValid → step s = .next t → t.CacheValid)

/-- Every step keeps the canonical form of both arrays, whatever else holds of the state. The form is the model's own
(DESIGN CHOICE, log 4). -/
def Obligations.StepKeepsCanonicalForm : Prop :=
  ∀ s t : State, Memory.wf s.key = true → Cells.wf s.words = true → step s = .next t →
    Memory.wf t.key = true ∧ Cells.wf t.words = true

/-- R99, R131, R192: states that differ at most in cells no command may read stay so, with equal responses. -/
def Obligations.StepCannotTellAlikeStates : Prop :=
  ∀ s t s' t' : State, s.Alike t → step s = .next s' → step t = .next t' → s'.Alike t'

/-- R192: no run from reset can make a response depend on the reset contents of `W` or `KEY`. -/
def Obligations.ResetContentsUnobservable : Prop :=
  ∀ (c : Config) (key₁ key₂ : Memory) (words₁ words₂ : Cells 64) (moves : List HostMove) (k : Nat), ∃ t u,
    run k { State.resetWith c with key := key₁, words := words₁, input := moves } = .next t ∧
    run k { State.resetWith c with key := key₂, words := words₂, input := moves } = .next u ∧
    t.output = u.output

/- The host's reference client -/

/-- R152, R164 (range): whoever answers the bits, a returned bucket is below `max(m, 1)`. -/
def Obligations.BucketInRange : Prop :=
  ∀ (ask : Nat → State → BitReply × State) (h : HostConfig) (m n : Nat) (s t : State),
    selectWith ask h m s = (.bucket n, t) → n < max m 1

/-- A pool size beyond the limit or at most 1 is settled without touching the block. R153 and R179 say that no command is
issued; R154 says only that no GETBIT and no CRESET is. That `selectBucketOfKey` does not even load the key, which R163
names first, is THE MODEL'S CHOICE (DESIGN CHOICE, log 13). -/
def Obligations.PoolSizeSettledWithoutBlock : Prop :=
  ∀ (h : HostConfig) (K : List Byte) (m : Nat) (s : State),
    (2 ^ h.shift < m → selectBucket h m s = (.invalidPoolSize, s) ∧ selectBucketWithCache h m s = (.invalidPoolSize, s) ∧
      selectBucketOfKey h K m s = (.invalidPoolSize, s)) ∧
    (m ≤ 1 → selectBucket h m s = (.bucket 0, s) ∧ selectBucketWithCache h m s = (.bucket 0, s) ∧
      selectBucketOfKey h K m s = (.bucket 0, s))

/-- R156: the depth is the least `d` with `2^d ≥ m`; for `2 ≤ m ≤ 2^SHIFT` it lies between 1 and SHIFT. -/
def Obligations.TreeDepthIsLeast : Prop :=
  ∀ m : Nat, m ≤ 2 ^ treeDepth m ∧ (∀ d, m ≤ 2 ^ d → treeDepth m ≤ d) ∧
    (2 ≤ m → 1 ≤ treeDepth m) ∧ (∀ shift, m ≤ 2 ^ shift → treeDepth m ≤ shift)

/-- R160: the greatest bit index the client ever asks is at most `MAX_TRIES * SHIFT^2`: a party that answers only up to
there, with any bits at all, is never asked in vain. -/
def Obligations.ClientIndicesBounded : Prop :=
  ∀ (h : HostConfig) (bits : Nat → Bool) (m : Nat) (f : HostFailure), h.wf = true →
    (selectWith (fun a (u : Unit) =>
      if a ≤ h.maxTries * h.shift ^ 2 then (.bit (bits a), u) else (.failed .operandTooWide, u)) h m ()).1 ≠ .failed f

/-- R162, R164: on a block that is cache-valid for the current key and large enough (R160), the client without CRESET
returns the bucket of the key as a function of its bits alone, and leaves the block cache-valid for the same key. -/
def Obligations.CachedClientComputesBucket : Prop :=
  ∀ (h : HostConfig) (m : Nat) (s : State), s.cfg.wf = true → h.wf = true → h.fitsCache s.cfg = true →
    s.CacheValidNow → ∃ t, selectBucketWithCache h m s = (bucketOf s.cfg.seed h s.keyBytes m, t) ∧
      t.CacheValidNow ∧ t.keyBytes = s.keyBytes ∧ t.err = s.err ∧ t.cfg = s.cfg

/-- R163, R164 (determinism): from every state, whatever was cached or loaded before, `select_bucket` on a key that fits
returns the bucket of that key as a function of its bits alone. -/
def Obligations.SelectBucketComputesBucket : Prop :=
  ∀ (h : HostConfig) (K : List Byte) (m : Nat) (s : State), s.cfg.wf = true → h.wf = true →
    h.fitsCache s.cfg = true → K.length ≤ s.cfg.keyCap →
    ∃ t, selectBucketOfKey h K m s = (bucketOf s.cfg.seed h K m, t) ∧ t.err = s.err ∧ t.cfg = s.cfg

/- The response frame -/

/-- R61, R171: `status` in bits [71:64], `data` in bits [63:0]; OK is 0, the five faults are 1 to 5, no other code. -/
def Obligations.ResponseFrameFields : Prop :=
  (∀ r : Response, r.toFrame.extractLsb' 64 8 = r.status.code ∧ r.toFrame.extractLsb' 0 64 = r.data) ∧
  Status.ok.code = 0x00#8 ∧
  (Status.fault .illegalOpcode).code = 0x01#8 ∧ (Status.fault .illegalOperand).code = 0x02#8 ∧
  (Status.fault .keyOverflow).code = 0x03#8 ∧ (Status.fault .cacheRange).code = 0x04#8 ∧
  (Status.fault .wordInvalid).code = 0x05#8 ∧
  (∀ c : CommandFault, (Status.fault c).code = c.code) ∧ (∀ st : Status, st.code.toNat ≤ 5)
end

