-- ==== Sys2Proof/Laws/Assembler.lean ====
section
/-! SUPPORT. How the assembler cuts a line into tokens, and the row its mnemonic names. -/

namespace Sys2Proof.Machine

/-- A character that neither ends a word nor opens a text or a comment. -/
def asmPlain (c : Char) : Prop := c ≠ ';' ∧ c ≠ ' ' ∧ c ≠ '\t' ∧ c ≠ '"'

/-- Plain characters join the word being read. -/
theorem asmTokens_plain (cs rest word : List Char) (h : ∀ c ∈ cs, asmPlain c) :
    asmTokens (cs ++ rest) word none = asmTokens rest (word ++ cs) none := by
  induction cs generalizing word with
  | nil => simp
  | cons c cs ih =>
    obtain ⟨semi, blank, tab, quote⟩ := h c (by simp)
    rw [List.cons_append, asmTokens, if_neg semi, if_neg (by simp [blank, tab]), if_neg quote,
      ih _ fun c hc => h c (by simp [hc])]
    simp

/-- A blank ends the word being read. -/
theorem asmTokens_blank (rest word : List Char) :
    asmTokens (' ' :: rest) word none = (asmTokens rest [] none).map (asmFlush word) := by
  rw [asmTokens, if_neg (by decide), if_pos (.inl rfl)]

/-- A comment ends the line. -/
theorem asmTokens_comment (rest word : List Char) : asmTokens (';' :: rest) word none = some (asmFlush word []) := by
  rw [asmTokens, if_pos rfl]

/-- A mnemonic is one word, and none of the pseudo-commands (R70). -/
theorem asmMnemonic_word (i : Instr) :
    (∀ c ∈ asmMnemonic i, asmPlain c) ∧ asmMnemonic i ≠ [] ∧ asmMnemonic i ≠ ['K','E','Y'] ∧
      asmMnemonic i ≠ ['N','E','W','K','E','Y'] ∧ asmMnemonic i ≠ ['K','E','Y','X'] := by
  cases i <;> simp [asmMnemonic, asmPlain]

/-- The row a command's mnemonic names has its format, and builds the command from its operand (R64). -/
theorem asmRows_lookup_mnemonic (i : Instr) :
    ∃ mk, asmRows.lookup (asmMnemonic i) = some (i.format, mk) ∧ mk i.arg.toNat = i := by
  cases i <;> refine ⟨_, rfl, ?_⟩ <;> simp [Instr.arg] <;> (try (rw [Nat.mod_eq_of_lt]; simp; omega))

/-- A command's operand fits its format (R62). -/
theorem arg_fits_format (i : Instr) : i.arg.toNat < 2 ^ i.format.operandBits := by
  cases i <;> simp [Instr.arg, Instr.format, Format.operandBits] <;> omega

end Sys2Proof.Machine
end

