-- ==== Sys2Proof/Laws/Cells.lean ====
section
/-! SUPPORT. The laws of the sparse arrays: read after write, the canonical form, and the bytes a multi-byte write touches. -/

namespace Sys2Proof.Machine

theorem Cells.read?_write_same {w : Nat} (m : Cells w) (a : Nat) (v : BitVec w) :
    Cells.read? (Cells.write m a v) a = some v := by
  induction m with
  | nil => simp [Cells.write, Cells.read?]
  | cons c rest ih =>
    obtain ⟨b, u⟩ := c
    simp only [Cells.write]
    split
    · simp [Cells.read?]
    · split
      · simp [Cells.read?]
      · simp [Cells.read?, *]

theorem Cells.read?_write_other {w : Nat} (m : Cells w) {a b : Nat} (v : BitVec w) (h : b ≠ a) :
    Cells.read? (Cells.write m a v) b = Cells.read? m b := by
  induction m with
  | nil => simp [Cells.write, Cells.read?, h]
  | cons c rest ih =>
    obtain ⟨b', u⟩ := c
    simp only [Cells.write]
    split
    · simp [Cells.read?, h]
    · split
      · subst a; simp [Cells.read?, h]
      · simp [Cells.read?, ih]

/-- What a write does, once: the written address reads the value, every other one reads as before. -/
theorem Cells.read?_write {w : Nat} (m : Cells w) (a b : Nat) (v : BitVec w) :
    Cells.read? (Cells.write m a v) b = if b = a then some v else Cells.read? m b := by
  split
  · subst b; exact Cells.read?_write_same m a v
  · exact Cells.read?_write_other m v ‹_›

theorem Cells.wf_cons {w : Nat} (a : Nat) (v : BitVec w) (m : Cells w) :
    Cells.wf ((a, v) :: m) = true ↔ (∀ c ∈ m.head?, a < c.1) ∧ Cells.wf m = true := by
  cases m with
  | nil => simp [Cells.wf]
  | cons c rest => simp [Cells.wf]

theorem Cells.write_head {w : Nat} (m : Cells w) (a : Nat) (v : BitVec w) {b : Nat} (hb : b < a)
    (h : ∀ c ∈ m.head?, b < c.1) : ∀ c ∈ (Cells.write m a v).head?, b < c.1 := by
  cases m with
  | nil => simpa [Cells.write] using hb
  | cons c rest =>
    obtain ⟨b', u⟩ := c
    simp only [Cells.write]
    split
    · simpa using hb
    · split
      · simpa using hb
      · simpa using h

/-- A write keeps the canonical form. -/
theorem Cells.wf_write {w : Nat} (m : Cells w) (a : Nat) (v : BitVec w) (h : Cells.wf m = true) :
    Cells.wf (Cells.write m a v) = true := by
  induction m with
  | nil => simp [Cells.write, Cells.wf]
  | cons c rest ih =>
    obtain ⟨b, u⟩ := c
    rw [Cells.wf_cons] at h
    simp only [Cells.write]
    split
    · rw [Cells.wf_cons, Cells.wf_cons]
      exact ⟨by simpa using ‹a < b›, h⟩
    · split
      · subst a; rw [Cells.wf_cons]; exact h
      · rw [Cells.wf_cons]
        exact ⟨Cells.write_head rest a v (by omega) h.1, ih h.2⟩

/-- The addresses a write lists: those listed before and the written one. -/
theorem Cells.all_write {w : Nat} (m : Cells w) (a : Nat) (v : BitVec w) (p : Nat → Bool)
    (h : m.all (fun c => p c.1) = true) (ha : p a = true) :
    (Cells.write m a v).all (fun c => p c.1) = true := by
  induction m with
  | nil => simpa [Cells.write] using ha
  | cons c rest ih =>
    obtain ⟨b, u⟩ := c
    simp only [List.all_cons, Bool.and_eq_true] at h
    simp only [Cells.write]
    split
    · simp only [List.all_cons, Bool.and_eq_true]; exact ⟨ha, h⟩
    · split
      · simp only [List.all_cons, Bool.and_eq_true]; exact ⟨ha, h.2⟩
      · simp only [List.all_cons, Bool.and_eq_true]; exact ⟨h.1, ih h.2⟩

theorem memWrite_zero (m : Memory) (a : Nat) (v : Word) : memWrite m a 0 v = m := rfl

theorem memWrite_succ (m : Memory) (a n : Nat) (v : Word) :
    memWrite m a (n + 1) v = Cells.write (w := 8) (memWrite m a n v) (a + n) (wordByte v n) := by
  simp [memWrite, List.range_succ]

/-- What `MemWrite(a, n, v)` does, once (R12): offset `a + j`, `j < n`, reads byte `j` of `v`; every other one as before. -/
theorem read?_memWrite (m : Memory) (a n : Nat) (v : Word) (b : Nat) :
    Cells.read? (w := 8) (memWrite m a n v) b =
      if a ≤ b ∧ b < a + n then some (wordByte v (b - a)) else Cells.read? (w := 8) m b := by
  induction n with
  | zero => rw [memWrite_zero, if_neg (by omega)]
  | succ n ih =>
    rw [memWrite_succ, Cells.read?_write, ih]
    by_cases hb : b = a + n
    · subst hb; simp
    · by_cases h : a ≤ b ∧ b < a + n
      · rw [if_neg hb, if_pos h, if_pos (by omega)]
      · rw [if_neg hb, if_neg h, if_neg (by omega)]

/-- `MemWrite` keeps the canonical form. -/
theorem Memory.wf_memWrite (m : Memory) (a n : Nat) (v : Word) (h : Memory.wf m = true) :
    Memory.wf (memWrite m a n v) = true := by
  induction n with
  | zero => exact h
  | succ n ih => rw [memWrite_succ]; exact Cells.wf_write _ _ _ ih

/-- The offsets `MemWrite` lists: those listed before and the written ones. -/
theorem all_memWrite (m : Memory) (a n : Nat) (v : Word) (p : Nat → Bool)
    (h : m.all (fun c => p c.1) = true) (ha : ∀ j, j < n → p (a + j) = true) :
    (memWrite m a n v).all (fun c => p c.1) = true := by
  induction n with
  | zero => exact h
  | succ n ih =>
    rw [memWrite_succ]
    exact Cells.all_write (w := 8) _ _ _ p (ih fun j hj => ha j (by omega)) (ha n (by omega))

end Sys2Proof.Machine
end

