-- ==== Sys2Proof/Laws/Hash.lean ====
section
/-! SUPPORT. One-step equations of the hash's loops, and what the loops read. -/

namespace Sys2Proof.Machine

@[simp] theorem memRead_zero (B : Nat → Byte) (a : Nat) : memRead B a 0 = 0#64 := rfl

theorem memRead_succ (B : Nat → Byte) (a n : Nat) :
    memRead B a (n + 1) = memRead B a n + (zext64 (B (a + n)) <<< (8 * n)) := by
  simp [memRead, List.range_succ]

@[simp] theorem mixBlocks_zero (B : Nat → Byte) (h : Word) : mixBlocks B 0 h = h := rfl

/-- The last block round (R93, R94). -/
theorem mixBlocks_succ (B : Nat → Byte) (n : Nat) (h : Word) :
    mixBlocks B (n + 1) h = mixRound (mixBlocks B n h) (memRead B (8 * n) 8) := by
  simp [mixBlocks, List.range_succ]

@[simp] theorem foldTail_zero (B : Nat → Byte) (o : Nat) (h : Word) : foldTail B o 0 h = h := rfl

/-- The last tail byte (R95). -/
theorem foldTail_succ (B : Nat → Byte) (o t : Nat) (h : Word) :
    foldTail B o (t + 1) h = foldTail B o t h ^^^ (zext64 (B (o + t)) <<< (8 * t)) := by
  simp [foldTail, List.range_succ]

/-- `MemRead(a, n)` reads offsets `a .. a + n - 1` only (R12). -/
theorem memRead_congr {B C : Nat → Byte} (a n : Nat) (h : ∀ b, a ≤ b → b < a + n → B b = C b) :
    memRead B a n = memRead C a n := by
  induction n with
  | zero => simp
  | succ n ih =>
    rw [memRead_succ, memRead_succ, ih fun b h₁ h₂ => h b h₁ (by omega), h (a + n) (by omega) (by omega)]

/-- The block loop reads offsets below `8 * nblocks` only (R99). -/
theorem mixBlocks_congr {B C : Nat → Byte} (n : Nat) (x : Word) (h : ∀ b, b < 8 * n → B b = C b) :
    mixBlocks B n x = mixBlocks C n x := by
  induction n with
  | zero => simp
  | succ n ih =>
    have hr : memRead B (8 * n) 8 = memRead C (8 * n) 8 := memRead_congr _ _ fun b _ h₂ => h b (by omega)
    rw [mixBlocks_succ, mixBlocks_succ, ih fun b hb => h b (by omega), hr]

/-- The tail fold reads the `t` offsets from `o` only (R99). -/
theorem foldTail_congr {B C : Nat → Byte} (o t : Nat) (x : Word) (h : ∀ b, o ≤ b → b < o + t → B b = C b) :
    foldTail B o t x = foldTail C o t x := by
  induction t with
  | zero => simp
  | succ t ih =>
    rw [foldTail_succ, foldTail_succ, ih fun b h₁ h₂ => h b h₁ (by omega), h (o + t) (by omega) (by omega)]

@[simp] theorem streamWord_zero (seed : BitVec 32) (K : List Byte) : streamWord seed K 0 = mix64Bytes K seed := rfl

@[simp] theorem streamWord_succ (seed : BitVec 32) (K : List Byte) (n : Nat) :
    streamWord seed K (n + 1) = rehash64 seed (streamWord seed K n) := rfl

end Sys2Proof.Machine
end

