-- ==== Sys2Proof/Laws/State.lean ====
section
/-! SUPPORT. One lemma per field per update of State, so that no later proof unfolds a record update. -/

namespace Sys2Proof.Machine

@[simp] theorem State.respond_cfg (s : State) (d : Word) : (s.respond d).cfg = s.cfg := rfl
@[simp] theorem State.respond_words (s : State) (d : Word) : (s.respond d).words = s.words := rfl
@[simp] theorem State.respond_cur (s : State) (d : Word) : (s.respond d).cur = s.cur := rfl
@[simp] theorem State.respond_key (s : State) (d : Word) : (s.respond d).key = s.key := rfl
@[simp] theorem State.respond_klen (s : State) (d : Word) : (s.respond d).klen = s.klen := rfl
@[simp] theorem State.respond_err (s : State) (d : Word) : (s.respond d).err = s.err := rfl
@[simp] theorem State.respond_input (s : State) (d : Word) : (s.respond d).input = s.input := rfl
@[simp] theorem State.respond_output (s : State) (d : Word) : (s.respond d).output = s.output ++ [{ status := .ok, data := d }] := rfl

@[simp] theorem State.takeFault_cfg (s : State) (c : CommandFault) : (s.takeFault c).cfg = s.cfg := rfl
@[simp] theorem State.takeFault_words (s : State) (c : CommandFault) : (s.takeFault c).words = s.words := rfl
@[simp] theorem State.takeFault_cur (s : State) (c : CommandFault) : (s.takeFault c).cur = s.cur := rfl
@[simp] theorem State.takeFault_key (s : State) (c : CommandFault) : (s.takeFault c).key = s.key := rfl
@[simp] theorem State.takeFault_klen (s : State) (c : CommandFault) : (s.takeFault c).klen = s.klen := rfl
@[simp] theorem State.takeFault_err (s : State) (c : CommandFault) : (s.takeFault c).err = latchErr s.err c := rfl
@[simp] theorem State.takeFault_input (s : State) (c : CommandFault) : (s.takeFault c).input = s.input := rfl
@[simp] theorem State.takeFault_output (s : State) (c : CommandFault) : (s.takeFault c).output = s.output ++ [{ status := .fault c, data := 0#64 }] := rfl

@[simp] theorem State.setKlen_cfg (s : State) (k : BitVec 32) : (s.setKlen k).cfg = s.cfg := rfl
@[simp] theorem State.setKlen_words (s : State) (k : BitVec 32) : (s.setKlen k).words = s.words := rfl
@[simp] theorem State.setKlen_cur (s : State) (k : BitVec 32) : (s.setKlen k).cur = s.cur := rfl
@[simp] theorem State.setKlen_key (s : State) (k : BitVec 32) : (s.setKlen k).key = s.key := rfl
@[simp] theorem State.setKlen_klen (s : State) (k : BitVec 32) : (s.setKlen k).klen = k := rfl
@[simp] theorem State.setKlen_err (s : State) (k : BitVec 32) : (s.setKlen k).err = s.err := rfl
@[simp] theorem State.setKlen_input (s : State) (k : BitVec 32) : (s.setKlen k).input = s.input := rfl
@[simp] theorem State.setKlen_output (s : State) (k : BitVec 32) : (s.setKlen k).output = s.output := rfl

@[simp] theorem State.setCur_cfg (s : State) (c : Option Nat) : (s.setCur c).cfg = s.cfg := rfl
@[simp] theorem State.setCur_words (s : State) (c : Option Nat) : (s.setCur c).words = s.words := rfl
@[simp] theorem State.setCur_cur (s : State) (c : Option Nat) : (s.setCur c).cur = c := rfl
@[simp] theorem State.setCur_key (s : State) (c : Option Nat) : (s.setCur c).key = s.key := rfl
@[simp] theorem State.setCur_klen (s : State) (c : Option Nat) : (s.setCur c).klen = s.klen := rfl
@[simp] theorem State.setCur_err (s : State) (c : Option Nat) : (s.setCur c).err = s.err := rfl
@[simp] theorem State.setCur_input (s : State) (c : Option Nat) : (s.setCur c).input = s.input := rfl
@[simp] theorem State.setCur_output (s : State) (c : Option Nat) : (s.setCur c).output = s.output := rfl

@[simp] theorem State.writeWord_cfg (s : State) (n : Nat) (v : Word) : (s.writeWord n v).cfg = s.cfg := rfl
@[simp] theorem State.writeWord_words (s : State) (n : Nat) (v : Word) : (s.writeWord n v).words = Cells.write s.words n v := rfl
@[simp] theorem State.writeWord_cur (s : State) (n : Nat) (v : Word) : (s.writeWord n v).cur = s.cur := rfl
@[simp] theorem State.writeWord_key (s : State) (n : Nat) (v : Word) : (s.writeWord n v).key = s.key := rfl
@[simp] theorem State.writeWord_klen (s : State) (n : Nat) (v : Word) : (s.writeWord n v).klen = s.klen := rfl
@[simp] theorem State.writeWord_err (s : State) (n : Nat) (v : Word) : (s.writeWord n v).err = s.err := rfl
@[simp] theorem State.writeWord_input (s : State) (n : Nat) (v : Word) : (s.writeWord n v).input = s.input := rfl
@[simp] theorem State.writeWord_output (s : State) (n : Nat) (v : Word) : (s.writeWord n v).output = s.output := rfl

@[simp] theorem State.appendKey_cfg (s : State) (n : Nat) (v : Word) : (s.appendKey n v).cfg = s.cfg := rfl
@[simp] theorem State.appendKey_words (s : State) (n : Nat) (v : Word) : (s.appendKey n v).words = s.words := rfl
@[simp] theorem State.appendKey_cur (s : State) (n : Nat) (v : Word) : (s.appendKey n v).cur = s.cur := rfl
@[simp] theorem State.appendKey_key (s : State) (n : Nat) (v : Word) : (s.appendKey n v).key = memWrite s.key s.klen.toNat n v := rfl
@[simp] theorem State.appendKey_klen (s : State) (n : Nat) (v : Word) : (s.appendKey n v).klen = s.klen + BitVec.ofNat 32 n := rfl
@[simp] theorem State.appendKey_err (s : State) (n : Nat) (v : Word) : (s.appendKey n v).err = s.err := rfl
@[simp] theorem State.appendKey_input (s : State) (n : Nat) (v : Word) : (s.appendKey n v).input = s.input := rfl
@[simp] theorem State.appendKey_output (s : State) (n : Nat) (v : Word) : (s.appendKey n v).output = s.output := rfl

@[simp] theorem State.applyReset_cfg (s : State) : (s.applyReset).cfg = s.cfg := rfl
@[simp] theorem State.applyReset_words (s : State) : (s.applyReset).words = [] := rfl
@[simp] theorem State.applyReset_cur (s : State) : (s.applyReset).cur = none := rfl
@[simp] theorem State.applyReset_key (s : State) : (s.applyReset).key = [] := rfl
@[simp] theorem State.applyReset_klen (s : State) : (s.applyReset).klen = 0#32 := rfl
@[simp] theorem State.applyReset_err (s : State) : (s.applyReset).err = 0#16 := rfl
@[simp] theorem State.applyReset_input (s : State) : (s.applyReset).input = s.input := rfl
@[simp] theorem State.applyReset_output (s : State) : (s.applyReset).output = s.output := rfl

@[simp] theorem State.offer_cfg (s : State) (f : Frame) : (s.offer f).cfg = s.cfg := rfl
@[simp] theorem State.offer_words (s : State) (f : Frame) : (s.offer f).words = s.words := rfl
@[simp] theorem State.offer_cur (s : State) (f : Frame) : (s.offer f).cur = s.cur := rfl
@[simp] theorem State.offer_key (s : State) (f : Frame) : (s.offer f).key = s.key := rfl
@[simp] theorem State.offer_klen (s : State) (f : Frame) : (s.offer f).klen = s.klen := rfl
@[simp] theorem State.offer_err (s : State) (f : Frame) : (s.offer f).err = s.err := rfl
@[simp] theorem State.offer_input (s : State) (f : Frame) : (s.offer f).input = .command f :: s.input := rfl
@[simp] theorem State.offer_output (s : State) (f : Frame) : (s.offer f).output = s.output := rfl

@[simp] theorem State.resetWith_cfg (c : Config) : (State.resetWith c).cfg = c := rfl
@[simp] theorem State.resetWith_words (c : Config) : (State.resetWith c).words = [] := rfl
@[simp] theorem State.resetWith_cur (c : Config) : (State.resetWith c).cur = none := rfl
@[simp] theorem State.resetWith_key (c : Config) : (State.resetWith c).key = [] := rfl
@[simp] theorem State.resetWith_klen (c : Config) : (State.resetWith c).klen = 0#32 := rfl
@[simp] theorem State.resetWith_err (c : Config) : (State.resetWith c).err = 0#16 := rfl
@[simp] theorem State.resetWith_input (c : Config) : (State.resetWith c).input = [] := rfl
@[simp] theorem State.resetWith_output (c : Config) : (State.resetWith c).output = [] := rfl

end Sys2Proof.Machine
end

