-- ==== Sys2Proof/Laws/Ops.lean ====
section
/-! SUPPORT. What each shared operation can do, said once: the word cache, GETBIT's fill, the key buffer, the latch. -/

namespace Sys2Proof.Machine

@[simp] theorem State.respond_word (s : State) (d : Word) (n : Nat) : (s.respond d).word n = s.word n := rfl
@[simp] theorem State.respond_keyByte (s : State) (d : Word) (a : Nat) : (s.respond d).keyByte a = s.keyByte a := rfl
@[simp] theorem State.respond_keyBytes (s : State) (d : Word) : (s.respond d).keyBytes = s.keyBytes := rfl
@[simp] theorem State.takeFault_word (s : State) (c : CommandFault) (n : Nat) : (s.takeFault c).word n = s.word n := rfl
@[simp] theorem State.takeFault_keyByte (s : State) (c : CommandFault) (a : Nat) :
    (s.takeFault c).keyByte a = s.keyByte a := rfl
@[simp] theorem State.setCur_word (s : State) (c : Option Nat) (n : Nat) : (s.setCur c).word n = s.word n := rfl
@[simp] theorem State.setCur_keyByte (s : State) (c : Option Nat) (a : Nat) : (s.setCur c).keyByte a = s.keyByte a := rfl
@[simp] theorem State.setKlen_word (s : State) (k : BitVec 32) (n : Nat) : (s.setKlen k).word n = s.word n := rfl
@[simp] theorem State.setKlen_keyByte (s : State) (k : BitVec 32) (a : Nat) : (s.setKlen k).keyByte a = s.keyByte a := rfl
@[simp] theorem State.writeWord_keyByte (s : State) (n : Nat) (v : Word) (a : Nat) :
    (s.writeWord n v).keyByte a = s.keyByte a := rfl
@[simp] theorem State.appendKey_word (s : State) (n : Nat) (v : Word) (k : Nat) :
    (s.appendKey n v).word k = s.word k := rfl

theorem firstMissing_none : firstMissing none = 0 := rfl

theorem firstMissing_some (c : Nat) : firstMissing (some c) = c + 1 := rfl

/-- `W[n] <- v` (R12). -/
theorem State.word_writeWord (s : State) (n : Nat) (v : Word) (k : Nat) :
    (s.writeWord n v).word k = if k = n then v else s.word k := by
  simp only [State.word, State.writeWord_words, Cells.read?_write]
  split <;> simp

/-- KPUSH's and KPUSHW's store (R82, R83): `n` bytes of `v` from offset `KLEN`, every other byte as before. -/
theorem State.keyByte_appendKey (s : State) (n : Nat) (v : Word) (a : Nat) :
    (s.appendKey n v).keyByte a =
      if s.klen.toNat ≤ a ∧ a < s.klen.toNat + n then wordByte v (a - s.klen.toNat) else s.keyByte a := by
  simp only [State.keyByte, State.appendKey_key, read?_memWrite]
  split <;> simp

@[simp] theorem State.fillWords_zero (s : State) (first : Nat) : s.fillWords first 0 = s := rfl

theorem State.fillWords_succ (s : State) (first count : Nat) :
    s.fillWords first (count + 1) = (s.writeWord first (s.nextWord first)).fillWords (first + 1) count := rfl

/-- The fill writes `W` and nothing else. -/
theorem State.fillWords_frame (s : State) (first count : Nat) :
    s.fillWords first count = { s with words := (s.fillWords first count).words } := by
  induction count generalizing s first with
  | zero => rfl
  | succ k ih => rw [State.fillWords_succ, ih]; rfl

/-- The fill leaves every entry outside `first .. first + count - 1` as it was (R124). -/
theorem State.fillWords_other (s : State) (first count n : Nat) (h : n < first ∨ first + count ≤ n) :
    (s.fillWords first count).word n = s.word n := by
  induction count generalizing s first with
  | zero => rfl
  | succ k ih => rw [State.fillWords_succ, ih _ _ (by omega), State.word_writeWord, if_neg (by omega)]

/-- Each entry the fill writes is computed from the entry before it, word 0 from the key (R124). -/
theorem State.fillWords_step (s : State) (first count n : Nat) (h₁ : first ≤ n) (h₂ : n < first + count) :
    (s.fillWords first count).word n = (s.fillWords first count).nextWord n := by
  induction count generalizing s first with
  | zero => omega
  | succ k ih =>
    rw [State.fillWords_succ]
    by_cases hn : n = first
    · subst hn
      rw [State.fillWords_other _ _ _ _ (by omega), State.word_writeWord, if_pos rfl, State.fillWords_frame]
      cases n with
      | zero => rfl
      | succ m =>
        have hm := State.fillWords_other (s.writeWord (m + 1) (s.nextWord (m + 1))) (m + 1 + 1) k m (by omega)
        rw [State.word_writeWord, if_neg (by omega)] at hm
        simp only [State.nextWord]
        rw [show State.word { s.writeWord (m + 1) (rehash64 s.cfg.seed (s.word m)) with
          words := ((s.writeWord (m + 1) (rehash64 s.cfg.seed (s.word m))).fillWords (m + 1 + 1) k).words } m = s.word m from hm]
        rfl
    · exact ih _ _ (by omega) (by omega)

theorem State.fillTo_cached (s : State) (order : Nat) (h : order < firstMissing s.cur) : s.fillTo order = s := by
  simp [State.fillTo, Nat.not_le.mpr h]

/-- GETBIT's fill writes `W` and `CUR` and nothing else (R32). -/
theorem State.fillTo_frame (s : State) (order : Nat) :
    s.fillTo order = { s with words := (s.fillTo order).words, cur := (s.fillTo order).cur } := by
  unfold State.fillTo
  split
  · rw [State.fillWords_frame]; rfl
  · rfl

/-- GETBIT's fill, said once (R124, R125): the cursor reaches at least `order` and never falls; entries up to the old
cursor and beyond the new one are untouched; each new entry comes from the one before it. -/
theorem State.fillTo_spec (s : State) (order : Nat) :
    firstMissing (s.fillTo order).cur = max (firstMissing s.cur) (order + 1) ∧
    (∀ n, n < firstMissing s.cur ∨ firstMissing (s.fillTo order).cur ≤ n → (s.fillTo order).word n = s.word n) ∧
    (∀ n, firstMissing s.cur ≤ n → n < firstMissing (s.fillTo order).cur →
      (s.fillTo order).word n = (s.fillTo order).nextWord n) := by
  unfold State.fillTo
  split
  · rename_i h
    refine ⟨?_, ?_, ?_⟩
    · simp [firstMissing_some]; omega
    · intro n hn
      rw [State.setCur_word, State.fillWords_other]
      simp [firstMissing_some] at hn
      omega
    · intro n h₁ h₂
      simp [firstMissing_some] at h₂
      rw [State.setCur_word, State.fillWords_step _ _ _ _ h₁ (by omega)]
      cases n <;> rfl
  · rename_i h
    refine ⟨by omega, fun _ _ => rfl, fun n h₁ h₂ => by omega⟩

/-- Taking a fault, said once (R172): the latch and the response, nothing else. -/
theorem State.takeFault_spec (s : State) (c : CommandFault) :
    s.takeFault c = { s with err := latchErr s.err c, output := s.output ++ [{ status := .fault c, data := 0#64 }] } := rfl

/-- Every command answers a next state with one response more: either a fault taken from the state before it, or an
OK response on top of its own effect (R17, R172). -/
theorem exec_answers (i : Instr) (s : State) :
    (∃ c, exec i s = .next (s.takeFault c)) ∨
    (∃ (u : State) (d : Word), exec i s = .next (u.respond d) ∧ u.cfg = s.cfg ∧ u.err = s.err ∧ u.input = s.input ∧ u.output = s.output) := by
  have fill (o : Nat) : (s.fillTo o).cfg = s.cfg ∧ (s.fillTo o).err = s.err ∧ (s.fillTo o).input = s.input ∧
      (s.fillTo o).output = s.output := by rw [State.fillTo_frame]; exact ⟨rfl, rfl, rfl, rfl⟩
  cases i with
  | nop => exact .inr ⟨s, _, rfl, rfl, rfl, rfl, rfl⟩
  | kclr => exact .inr ⟨s.setKlen 0#32, _, rfl, rfl, rfl, rfl, rfl⟩
  | kpush b =>
    simp only [exec, execKpush]
    split
    · exact .inr ⟨s.appendKey 1 (zext64 b), _, rfl, rfl, rfl, rfl, rfl⟩
    · exact .inl ⟨_, rfl⟩
  | kpushw w =>
    simp only [exec, execKpushw]
    split
    · exact .inr ⟨s.appendKey 8 w, _, rfl, rfl, rfl, rfl, rfl⟩
    · exact .inl ⟨_, rfl⟩
  | mhash seed => exact .inr ⟨s, _, rfl, rfl, rfl, rfl, rfl⟩
  | rhash w => exact .inr ⟨s, _, rfl, rfl, rfl, rfl, rfl⟩
  | getbit i =>
    simp only [exec, execGetbit]
    split
    · exact .inl ⟨_, rfl⟩
    · exact .inr ⟨s.fillTo (bitOrder i), _, rfl, fill _⟩
  | creset => exact .inr ⟨s.setCur none, _, rfl, rfl, rfl, rfl, rfl⟩
  | rdcur => exact .inr ⟨s, _, rfl, rfl, rfl, rfl, rfl⟩
  | rdw n =>
    simp only [exec, execRdw]
    split
    · exact .inr ⟨s, _, rfl, rfl, rfl, rfl, rfl⟩
    · exact .inl ⟨_, rfl⟩
  | rdklen => exact .inr ⟨s, _, rfl, rfl, rfl, rfl, rfl⟩
  | rdcfg sel =>
    simp only [exec, execRdcfg]
    split
    · exact .inr ⟨s, _, rfl, rfl, rfl, rfl, rfl⟩
    · exact .inl ⟨_, rfl⟩
  | rderr => exact .inr ⟨s, _, rfl, rfl, rfl, rfl, rfl⟩

end Sys2Proof.Machine
end

