-- ==== Sys2Proof/Laws/PerInstr.lean ====
section
/-! SUPPORT. A fact about every command's syntax, constructor by constructor. -/

namespace Sys2Proof.Laws

/-- The command's frame carries its opcode and its operand, and lies in its row of the opcode map (R64). -/
def FrameInRow.Statement (i : Instr) : Prop :=
  frameOp (encode i) = i.opcode ∧ frameArg (encode i) = i.arg ∧ encode i &&& i.format.rowMask = i.rowMatch

/-- The bits of a frame: `arg` below bit 64, `op` from there (R60). -/
theorem getLsbD_mkFrame (op : BitVec 8) (arg : Word) (j : Nat) :
    (mkFrame op arg).getLsbD j = if j < 64 then arg.getLsbD j else op.getLsbD (j - 64) := by
  have h := BitVec.getLsbD_append (x := op) (y := arg) (i := j)
  simpa [mkFrame] using h

theorem frameOp_mkFrame (op : BitVec 8) (arg : Word) : frameOp (mkFrame op arg) = op := by
  apply BitVec.eq_of_getLsbD_eq
  intro j hj
  simp [frameOp, getLsbD_mkFrame, hj]

theorem frameArg_mkFrame (op : BitVec 8) (arg : Word) : frameArg (mkFrame op arg) = arg := by
  apply BitVec.eq_of_getLsbD_eq
  intro j hj
  simp [frameArg, getLsbD_mkFrame, hj]

/-- The mask of format N keeps the whole frame. -/
theorem rowMask_N (op : BitVec 8) : mkFrame op 0#64 &&& Format.rowMask .N = mkFrame op 0#64 := by
  simp only [Format.rowMask]
  rw [show (0xFFFFFFFFFFFFFFFFFF#72 : BitVec 72) = BitVec.allOnes 72 by decide, BitVec.and_allOnes]

/-- The mask of a format clears an operand of its width. -/
theorem rowMask_append (op : BitVec 8) {n : Nat} (v : BitVec n) (mask : Frame)
    (hlo : ∀ j, j < n → mask.getLsbD j = false) (hhi : ∀ j, 64 ≤ j → j < 72 → mask.getLsbD j = true) :
    mkFrame op (v.setWidth 64) &&& mask = mkFrame op 0#64 := by
  apply BitVec.eq_of_getLsbD_eq
  intro j hj
  simp only [BitVec.getLsbD_and, getLsbD_mkFrame, BitVec.getLsbD_setWidth, BitVec.getLsbD_zero]
  by_cases h : j < 64
  · by_cases hv : j < n
    · simp [h, hlo j hv]
    · simp [h, BitVec.getLsbD_of_ge v j (by omega)]
  · simp [h, hhi j (by omega) hj]

theorem rowMask_B (op : BitVec 8) (v : BitVec 8) :
    mkFrame op (v.setWidth 64) &&& Format.rowMask .B = mkFrame op 0#64 :=
  rowMask_append op v _ (by decide) (by decide)

theorem rowMask_D (op : BitVec 8) (v : BitVec 32) :
    mkFrame op (v.setWidth 64) &&& Format.rowMask .D = mkFrame op 0#64 :=
  rowMask_append op v _ (by decide) (by decide)

theorem rowMask_Q (op : BitVec 8) (v : Word) : mkFrame op v &&& Format.rowMask .Q = mkFrame op 0#64 := by
  simpa using rowMask_append op v (Format.rowMask .Q) (by decide) (by decide)

theorem FrameInRow.nop : FrameInRow.Statement .nop :=
  ⟨frameOp_mkFrame _ _, frameArg_mkFrame _ _, rowMask_N _⟩
theorem FrameInRow.kclr : FrameInRow.Statement .kclr :=
  ⟨frameOp_mkFrame _ _, frameArg_mkFrame _ _, rowMask_N _⟩
theorem FrameInRow.kpush (b : Byte) : FrameInRow.Statement (.kpush b) :=
  ⟨frameOp_mkFrame _ _, frameArg_mkFrame _ _, rowMask_B _ b⟩
theorem FrameInRow.kpushw (w : Word) : FrameInRow.Statement (.kpushw w) :=
  ⟨frameOp_mkFrame _ _, frameArg_mkFrame _ _, rowMask_Q _ w⟩
theorem FrameInRow.mhash (seed : BitVec 32) : FrameInRow.Statement (.mhash seed) :=
  ⟨frameOp_mkFrame _ _, frameArg_mkFrame _ _, rowMask_D _ seed⟩
theorem FrameInRow.rhash (w : Word) : FrameInRow.Statement (.rhash w) :=
  ⟨frameOp_mkFrame _ _, frameArg_mkFrame _ _, rowMask_Q _ w⟩
theorem FrameInRow.getbit (i : BitVec 32) : FrameInRow.Statement (.getbit i) :=
  ⟨frameOp_mkFrame _ _, frameArg_mkFrame _ _, rowMask_D _ i⟩
theorem FrameInRow.creset : FrameInRow.Statement .creset :=
  ⟨frameOp_mkFrame _ _, frameArg_mkFrame _ _, rowMask_N _⟩
theorem FrameInRow.rdcur : FrameInRow.Statement .rdcur :=
  ⟨frameOp_mkFrame _ _, frameArg_mkFrame _ _, rowMask_N _⟩
theorem FrameInRow.rdw (n : BitVec 32) : FrameInRow.Statement (.rdw n) :=
  ⟨frameOp_mkFrame _ _, frameArg_mkFrame _ _, rowMask_D _ n⟩
theorem FrameInRow.rdklen : FrameInRow.Statement .rdklen :=
  ⟨frameOp_mkFrame _ _, frameArg_mkFrame _ _, rowMask_N _⟩
theorem FrameInRow.rdcfg (sel : BitVec 8) : FrameInRow.Statement (.rdcfg sel) :=
  ⟨frameOp_mkFrame _ _, frameArg_mkFrame _ _, rowMask_B _ sel⟩
theorem FrameInRow.rderr : FrameInRow.Statement .rderr :=
  ⟨frameOp_mkFrame _ _, frameArg_mkFrame _ _, rowMask_N _⟩

end Sys2Proof.Laws
end

