-- ==== Sys2Proof/Laws/Step.lean ====
section
/-! SUPPORT. What one step does, by the host's next move. -/

namespace Sys2Proof.Machine

theorem step_idle {s : State} (h : s.input = []) : step s = .next s := by
  simp [step, runMove, h]

theorem step_command {s : State} {f : Frame} {rest : List HostMove} (h : s.input = .command f :: rest) :
    step s = runFrame f { s with input := rest } := by
  simp [step, runMove, h]

theorem step_rst {s : State} {rest : List HostMove} (h : s.input = .reset :: rest) :
    step s = .next (State.applyReset { s with input := rest }) := by
  simp [step, runMove, h]

theorem runFrame_ok {f : Frame} {i : Instr} (s : State) (h : decode f = .ok i) : runFrame f s = exec i s := by
  simp [runFrame, h]

theorem runFrame_error {f : Frame} {c : CommandFault} (s : State) (h : decode f = .error c) :
    runFrame f s = .next (s.takeFault c) := by
  simp [runFrame, h]

/-- What a step does, said once: nothing, a hardware reset, a fault, or a decoded command. -/
theorem step_cases (s : State) :
    (s.input = [] ∧ step s = .next s) ∨
    (∃ rest, s.input = .reset :: rest ∧ step s = .next (State.applyReset { s with input := rest })) ∨
    (∃ f rest c, s.input = .command f :: rest ∧ decode f = .error c ∧
      step s = .next (State.takeFault { s with input := rest } c)) ∨
    (∃ f rest i, s.input = .command f :: rest ∧ decode f = .ok i ∧ step s = exec i { s with input := rest }) := by
  match h : s.input with
  | [] => exact .inl ⟨rfl, step_idle h⟩
  | .reset :: rest => exact .inr (.inl ⟨rest, rfl, step_rst h⟩)
  | .command f :: rest =>
    match hd : decode f with
    | .error c => exact .inr (.inr (.inl ⟨f, rest, c, rfl, hd, by rw [step_command h, runFrame_error _ hd]⟩))
    | .ok i => exact .inr (.inr (.inr ⟨f, rest, i, rfl, hd, by rw [step_command h, runFrame_ok _ hd]⟩))

end Sys2Proof.Machine
end

