-- ==== Sys2Proof/Tests/Slice0.lean ====
section
/-! SUPPORT. Tests: expected values from spec/95_test_vectors.md and the examples of the rules; ill-formed terms for each check; a witness for the hypotheses of each statement. -/

namespace Sys2Proof.Tests

open Sys2Proof Sys2Proof.Machine

/-- The status and data of the last response of the step that takes frame `f`, as a response frame (R61). -/
def answer (s : State) (f : Frame) : Option Frame :=
  match step (s.offer f) with
  | .next t => t.output.getLast?.map Response.toFrame
  | .fault _ => none
  | .refused _ => none

/-- The state after the step that takes frame `f`. -/
def after (s : State) (f : Frame) : State :=
  match step (s.offer f) with
  | .next t => t
  | .fault _ => s
  | .refused _ => s

/-- The key `K` loaded into a freshly reset block with parameters `c` (R80). -/
def loaded (c : Config) (K : List Byte) : State := (hostCalls (keySequence K) (State.resetWith c)).2

/-- "0123456789". -/
def digits : List Byte := [0x30#8, 0x31#8, 0x32#8, 0x33#8, 0x34#8, 0x35#8, 0x36#8, 0x37#8, 0x38#8, 0x39#8]

/-- CFG-SMALL with key "a" loaded and the stream of the empty key cached: a stale cache (V-ST row 8). -/
def stale : State :=
  { State.resetWith Config.small with
    words := [(0, 0#64), (1, 0x7208F7FA198A2D81#64)]
    cur := some 1
    key := [(0, 0x61#8)]
    klen := 1#32 }

/-- CFG-SMALL with nothing cached and `n` bytes of length. -/
def withLength (c : Config) (n : Nat) : State := { State.resetWith c with klen := BitVec.ofNat 32 n }

/-- `stale` with the host's next move. -/
def offering (m : HostMove) : State := { stale with input := [m] }

/- Well-formedness: an ill-formed term for each check -/

theorem test_wf_rdcfg : Instr.wf (.rdcfg 3#8) = false ∧ Instr.wf (.rdcfg 2#8) = true := by decide
theorem test_wf_fits : Format.fits .N 1 = false ∧ Format.fits .B 256 = false ∧ Format.fits .D (2 ^ 32) = false ∧
    Format.fits .Q (2 ^ 64) = false ∧ Format.fits .B 255 = true := by decide
theorem test_wf_config : Config.wf { seed := 0#32, cacheWords := 0, keyCap := 0 } = false ∧
    Config.wf { seed := 0#32, cacheWords := 2 ^ 26 + 1, keyCap := 0 } = false ∧
    Config.wf { seed := 0#32, cacheWords := 1, keyCap := 2 ^ 32 } = false ∧
    Config.ref.wf = true ∧ Config.small.wf = true := by decide
theorem test_wf_host : HostConfig.wf { shift := 0, maxTries := 1 } = false ∧
    HostConfig.wf { shift := 1, maxTries := 0 } = false ∧ HostConfig.wf { shift := 2 ^ 16, maxTries := 1 } = false ∧
    HostConfig.ref.wf = true ∧ HostConfig.small.wf = true := by decide
theorem test_wf_fitsCache : HostConfig.fitsCache .ref { Config.ref with cacheWords := 264 } = false ∧
    HostConfig.fitsCache .ref { Config.ref with cacheWords := 265 } = true := by decide

/- Decoding: each row's word written out from R64 -/

theorem test_decode_nop : decodeTableWord 72 0x000000000000000000 = some .nop := by decide
theorem test_decode_kclr : decodeTableWord 72 0x010000000000000000 = some .kclr := by decide
theorem test_decode_kpush : decodeTableWord 72 0x020000000000000061 = some (.kpush 0x61#8) := by decide
theorem test_decode_kpushw : decodeTableWord 72 0x033736353433323130 = some (.kpushw 0x3736353433323130#64) := by decide
theorem test_decode_mhash : decodeTableWord 72 0x0400000000F9F198EF = some (.mhash 0xF9F198EF#32) := by decide
theorem test_decode_rhash : decodeTableWord 72 0x050123456789ABCDEF = some (.rhash 0x0123456789ABCDEF#64) := by decide
theorem test_decode_getbit : decodeTableWord 72 0x060000000000000046 = some (.getbit 70#32) := by decide
theorem test_decode_creset : decodeTableWord 72 0x070000000000000000 = some .creset := by decide
theorem test_decode_rdcur : decodeTableWord 72 0x080000000000000000 = some .rdcur := by decide
theorem test_decode_rdw : decodeTableWord 72 0x090000000080000001 = some (.rdw 0x80000001#32) := by decide
theorem test_decode_rdklen : decodeTableWord 72 0x0A0000000000000000 = some .rdklen := by decide
theorem test_decode_rdcfg : decodeTableWord 72 0x0B0000000000000002 = some (.rdcfg 2#8) := by decide
theorem test_decode_rderr : decodeTableWord 72 0x0C0000000000000000 = some .rderr := by decide

/-- DE9's response as a frame (R61, R171): `00_` and the data; a fault's frame is its code and zeros. -/
theorem test_response_frame : Response.toFrame { status := .ok, data := 0xC7303618ACDA9E85#64 } = 0x00C7303618ACDA9E85#72 ∧
    Response.toFrame { status := .fault .keyOverflow, data := 0#64 } = 0x030000000000000000#72 := by decide

/-- V-DEC DE1 to DE3, DE5, DE7, DE10: rejected by name, the opcode before the operand. -/
theorem test_decode_rejects :
    decode 0x0D0000000000000000#72 = .error .illegalOpcode ∧ decode 0xFF0000000000001234#72 = .error .illegalOpcode ∧
    decode 0x80FFFFFFFFFFFFFFFF#72 = .error .illegalOpcode ∧ decode 0x088000000000000000#72 = .error .illegalOperand ∧
    decode 0x0200000000000001FF#72 = .error .illegalOperand ∧
    decode 0x0600000001FFFFFFFF#72 = .error .illegalOperand := by decide

/- Functions: V-MH, R102, V-RH -/

/-- MH2, MH9, MH10, MH12, MH19, seed 0: block and tail, the longest tail, no tail multiply, a zero tail byte, bit 63. -/
theorem test_mix64 : mix64Bytes digits 0#32 = 0xA8247417C7909865#64 ∧
    mix64Bytes [0x61#8, 0x62#8, 0x63#8, 0x64#8, 0x65#8, 0x66#8, 0x67#8] 0#32 = 0x241AA52B0A62005D#64 ∧
    mix64Bytes [0x61#8, 0x62#8, 0x63#8, 0x64#8, 0x65#8, 0x66#8, 0x67#8, 0x68#8] 0#32 = 0xAFDB0257FF41AA98#64 ∧
    mix64Bytes [0x61#8, 0x62#8, 0x63#8, 0x64#8, 0x65#8, 0x66#8, 0x67#8, 0x68#8, 0#8] 0#32 = 0x92185A966FF158BB#64 ∧
    mix64Bytes (List.replicate 8 0x80#8) 0#32 = 0xAD03C7E1C5E8675C#64 := by decide +kernel
/-- MH1, MH2 with a seed whose bit 31 is set: it is not sign-extended. -/
theorem test_mix64_seed : mix64Bytes [] 0xF9F198EF#32 = 0x4D408DE62DEE109A#64 ∧
    mix64Bytes digits 0xF9F198EF#32 = 0x7A8A2378207FEDBD#64 := by decide +kernel
/-- RH3, RH4, RH5 (CFG-REF) and RH4 (CFG-SMALL). -/
theorem test_rehash64 : rehash64 0xF9F198EF#32 0x0123456789ABCDEF#64 = 0x821118B2754D0117#64 ∧
    rehash64 0xF9F198EF#32 0xFFFFFFFFFFFFFFFF#64 = 0xC7303618ACDA9E85#64 ∧
    rehash64 0xF9F198EF#32 0x8000000000000000#64 = 0xFA190DED53F7F017#64 ∧
    rehash64 0#32 0xFFFFFFFFFFFFFFFF#64 = 0x3A8E59C4E2C576DD#64 := by decide +kernel
/-- V-ST row 1, `S_4`. -/
theorem test_stream : streamWord 0xF9F198EF#32 digits 4 = 0x80F0244ABE9A1D67#64 := by decide +kernel

/- One step per test: V-KB, V-MH, V-RH, V-GB, V-SYS, V-DEC -/

/-- SY1. -/
theorem test_nop : answer stale 0x000000000000000000#72 = some 0x000000000000000000#72 := by decide +kernel
/-- KB6: `CUR` and `W` stay. -/
theorem test_kclr : (after stale 0x010000000000000000#72).klen = 0#32 ∧
    (after stale 0x010000000000000000#72).cur = some 1 ∧
    (after stale 0x010000000000000000#72).words = stale.words := by decide +kernel
/-- KB3: a zero byte is data. -/
theorem test_kpush : (after stale 0x020000000000000000#72).klen = 2#32 ∧
    (after stale 0x020000000000000000#72).keyBytes = [0x61#8, 0#8] := by decide +kernel
/-- KB7. -/
theorem test_kpush_full : answer (withLength .ref 256) 0x020000000000000001#72 = some 0x030000000000000000#72 := by
  decide +kernel
/-- KB5's unaligned push, here from `KLEN = 1`. -/
theorem test_kpushw : (after stale 0x031122334455667788#72).klen = 9#32 ∧
    (after stale 0x031122334455667788#72).keyBytes =
      [0x61#8, 0x88#8, 0x77#8, 0x66#8, 0x55#8, 0x44#8, 0x33#8, 0x22#8, 0x11#8] := by decide +kernel
/-- KB10: no partial push. -/
theorem test_kpushw_full : answer (withLength .small 8) 0x0399AABBCCDDEEFF00#72 = some 0x030000000000000000#72 ∧
    (after (withLength .small 8) 0x0399AABBCCDDEEFF00#72).key = [] := by decide +kernel
/-- KB1 and R84's example. -/
theorem test_rdklen : answer State.reset 0x0A0000000000000000#72 = some 0x000000000000000000#72 ∧
    answer (loaded .ref digits) 0x0A0000000000000000#72 = some 0x00000000000000000A#72 := by decide +kernel
/-- MH2 as frames. -/
theorem test_mhash : answer (loaded .ref digits) 0x040000000000000000#72 = some 0x00A8247417C7909865#72 ∧
    answer (loaded .ref digits) 0x0400000000F9F198EF#72 = some 0x007A8A2378207FEDBD#72 := by decide +kernel
/-- V-MH's operand fault. -/
theorem test_mhash_operand : answer State.reset 0x040000000100000000#72 = some 0x020000000000000000#72 := by
  decide +kernel
/-- RH3 and RH1 (CFG-SMALL). -/
theorem test_rhash : answer State.reset 0x050123456789ABCDEF#72 = some 0x00821118B2754D0117#72 ∧
    answer stale 0x050000000000000000#72 = some 0x007208F7FA198A2D81#72 := by decide +kernel
/-- GB4, from a freshly loaded key: four words filled, bit 8 of word 3. -/
theorem test_getbit : answer (loaded .ref digits) 0x0600000000000000C8#72 = some 0x000000000000000001#72 ∧
    (after (loaded .ref digits) 0x0600000000000000C8#72).cur = some 3 ∧
    (after (loaded .ref digits) 0x0600000000000000C8#72).words =
      [(0, 0x7A8A2378207FEDBD#64), (1, 0x5F1A276BEC3A8109#64), (2, 0x17422AFBE297967A#64),
        (3, 0x1FC5DF5DDFB055C8#64)] := by decide +kernel
/-- GB11: out of range, nothing filled, first cause latched. -/
theorem test_getbit_range : answer (State.resetWith .small) 0x060000000000000080#72 = some 0x040000000000000000#72 ∧
    (after (State.resetWith .small) 0x060000000000000080#72).words = [] ∧
    (after (State.resetWith .small) 0x060000000000000080#72).err = 0x0401#16 := by decide +kernel
/-- CR1. -/
theorem test_creset : (after stale 0x070000000000000000#72).cur = none ∧
    (after stale 0x070000000000000000#72).words = stale.words := by decide +kernel
/-- RC1 and RC2's form. -/
theorem test_rdcur : answer State.reset 0x080000000000000000#72 = some 0x00FFFFFFFFFFFFFFFF#72 ∧
    answer stale 0x080000000000000000#72 = some 0x000000000000000001#72 := by decide +kernel
/-- P5 lines 21 and 20. -/
theorem test_rdw : answer stale 0x090000000000000001#72 = some 0x007208F7FA198A2D81#72 ∧
    answer stale 0x090000000000000002#72 = some 0x050000000000000000#72 := by decide +kernel
/-- SY3 to SY5, SY7. -/
theorem test_rdcfg : answer State.reset 0x0B0000000000000000#72 = some 0x0000000000F9F198EF#72 ∧
    answer State.reset 0x0B0000000000000001#72 = some 0x000000000000000400#72 ∧
    answer State.reset 0x0B0000000000000002#72 = some 0x000000000000000100#72 ∧
    answer State.reset 0x0B0000000000000003#72 = some 0x020000000000000000#72 := by decide +kernel
/-- SY11: the first cause is kept. -/
theorem test_rderr : answer { State.reset with err := latchErr (latchErr 0#16 .cacheRange) .illegalOpcode }
    0x0C0000000000000000#72 = some 0x000000000000000401#72 := by decide +kernel
/-- DE12: the operand fault outranks WORD_INVALID. -/
theorem test_priority : answer State.reset 0x090000000100000000#72 = some 0x020000000000000000#72 := by decide +kernel
/-- R190: RST from the stale state. -/
theorem test_rst : (match step (offering .reset) with | .next t => t == State.resetWith .small | _ => false) = true := by
  decide +kernel

/- The assembler (R69, R70) and the client (R166, V-SEL) -/

theorem test_asm : asmLine ['G','E','T','B','I','T',' ','7','0',' ',';',' ','x'] = some [.getbit 70#32] ∧
    asmLine ['K','P','U','S','H',' ','0','x','6','1'] = some [.kpush 0x61#8] ∧
    asmLine ['K','P','U','S','H',' ','2','5','6'] = none ∧ asmLine ['N','O','P',' ','0'] = none := by decide +kernel
theorem test_asm_pseudo : asmLine ['N','E','W','K','E','Y',' ','"','a','"'] = some [.kclr, .kpush 0x61#8, .creset] ∧
    asmLine ['K','E','Y','X',' ','0','0',' ','F','F'] = some [.kclr, .kpush 0#8, .kpush 0xFF#8] ∧
    asmLine ['K','E','Y',' ','"','"'] = some [.kclr] := by decide +kernel
/-- R166, `m = 5`: two rejected attempts, then a backtrack; on the block and from the bits alone. -/
theorem test_select : (selectBucketOfKey .ref digits 5 State.reset).1 = .bucket 2 ∧
    bucketOf 0xF9F198EF#32 .ref digits 5 = .bucket 2 := by decide +kernel
/-- V-SEL: `m = 8388608` and one more. -/
theorem test_select_limit : bucketOf 0xF9F198EF#32 .ref digits 8388608 = .bucket 3518439 ∧
    bucketOf 0xF9F198EF#32 .ref digits 8388609 = .invalidPoolSize := by decide +kernel
/-- P6: key "d", CFG-SMALL: attempts exhausted at `m = 9`, accepted at `m = 10`. -/
theorem test_select_small : (selectBucketOfKey .small [0x64#8] 9 (State.resetWith .small)).1 = .bucket 0 ∧
    (selectBucketOfKey .small [0x64#8] 10 (State.resetWith .small)).1 = .bucket 9 := by decide +kernel

/- Witnesses: a concrete input that meets the hypotheses of each statement, clause by clause -/

theorem witness_EncodeOfDecode : decode 0x0600000000FFFFFFFF#72 = .ok (.getbit 0xFFFFFFFF#32) := by decide
theorem witness_DecodeSelectsMatchingRow :
    (0x0B00000000000000FF#72 &&& (Instr.rdcfg 0#8).format.rowMask = (Instr.rdcfg 0#8).rowMatch) ∧
    (decode 0x0B00000000000000FF#72 = .ok (.rdcfg 0xFF#8) ∧ (Instr.rdcfg 0xFF#8).opcode = (Instr.rdcfg 0#8).opcode) := by
  decide
theorem witness_ReservedOpcodeFaults : (offering (.command 0x0D0000000000000000#72)).input = [.command 0x0D0000000000000000#72] ∧
    0x0C < (frameOp 0x0D0000000000000000#72).toNat ∧ 0x0C < (frameOp 0xFF0000000000001234#72).toNat := by decide
theorem witness_IllegalOperandFaults :
    (offering (.command 0x020000000000000100#72)).input = [.command 0x020000000000000100#72] ∧
    (frameOp 0x020000000000000100#72 = (Instr.kpush 0#8).opcode ∧
      0x020000000000000100#72 &&& (Instr.kpush 0#8).format.rowMask ≠ (Instr.kpush 0#8).rowMatch) ∧
    2 < (3#8).toNat := by decide
theorem witness_AssemblerNeverTruncates : asmCommand ['K','P','U','S','H'] (some 255) = some (.kpush 255#8) ∧
    (∃ mk, asmRows.lookup ['K','P','U','S','H'] = some (.B, mk)) ∧ 2 ^ Format.operandBits .B ≤ 256 :=
  ⟨by decide, ⟨_, rfl⟩, by decide⟩
/-- Lines of the text: the widest operand of KPUSH in both bases, one more than it, NOP without and with an operand. -/
theorem witness_AssemblerNeverTruncates_line :
    ((Instr.kpush 255#8).format ≠ .N ∧ Nat.ofDigits 10 [2, 5, 5].reverse = (Instr.kpush 255#8).arg.toNat ∧
      Nat.ofDigits 16 [15, 15].reverse = (Instr.kpush 255#8).arg.toNat) ∧
    2 ^ (Instr.kpush 255#8).format.operandBits ≤ Nat.ofDigits 10 [2, 5, 6].reverse ∧
    (∀ d ∈ [2, 5, 6], d < 10) ∧ (∀ d ∈ [15, 15], d < 16) ∧ Instr.nop.format = .N ∧
    (∃ c, [' ', ';', 'x'] = ' ' :: ';' :: c) := by
  refine ⟨by decide, by decide, by decide, by decide, rfl, _, rfl⟩
theorem witness_StepRunsDecodedCommand : (offering (.command 0x070000000000000000#72)).input = [.command 0x070000000000000000#72] ∧
    decode 0x070000000000000000#72 = .ok .creset := by decide
theorem witness_EveryFrameGetsOneResponse :
    (offering (.command 0xFF0000000000001234#72)).input = [.command 0xFF0000000000001234#72] := rfl
theorem witness_ResetMoveRestoresResetState : (offering .reset).input = [.reset] := rfl
theorem witness_CommandsWriteOnlyTheirState : ∃ t, exec .creset stale = .next t := ⟨_, rfl⟩
theorem witness_FaultChangesOnlyTheLatch :
    (offering (.command (encode (.rdw 2#32)))).input = [.command (encode (.rdw 2#32))] ∧
    ∃ t r, step (offering (.command (encode (.rdw 2#32)))) = .next t ∧ t.output = stale.output ++ [r] ∧
      r.status = .fault .wordInvalid := ⟨rfl, _, _, rfl, rfl, rfl⟩
theorem witness_LatchKeepsFirstCause : errF 0x0000#16 = false ∧ errF 0x0401#16 = true ∧
    (∃ t, step { offering (.command 0#72) with err := 0x0401#16 } = .next t) ∧
    (∀ rest, (offering (.command 0#72)).input ≠ .reset :: rest) ∧ Instr.nop ≠ .rderr ∧ (∃ t, exec .nop stale = .next t) :=
  ⟨by decide, by decide, ⟨_, rfl⟩, by simp [offering], by decide, ⟨_, rfl⟩⟩
theorem witness_FaultCausesExactly : ∃ t r, exec (.getbit 128#32) stale = .next t ∧ t.output = stale.output ++ [r] ∧
    r.status = .fault .cacheRange := ⟨_, _, rfl, rfl, rfl⟩
theorem witness_LegalLatchFields : errLegal 0x0000#16 = true ∧ errLegal 0x0501#16 = true ∧ errF 0x0501#16 = true := by decide
theorem witness_operand_faults_N : (frameOp 0x000000000000000001#72 = 0#8 ∧ frameArg 0x000000000000000001#72 ≠ 0#64) ∧
    (frameOp 0x018000000000000000#72 = 1#8 ∧ frameArg 0x018000000000000000#72 ≠ 0#64) ∧
    (frameOp 0x070000000000000001#72 = 7#8 ∧ frameArg 0x070000000000000001#72 ≠ 0#64) ∧
    (frameOp 0x088000000000000000#72 = 8#8 ∧ frameArg 0x088000000000000000#72 ≠ 0#64) ∧
    (frameOp 0x0A0000000000000001#72 = 10#8 ∧ frameArg 0x0A0000000000000001#72 ≠ 0#64) ∧
    (frameOp 0x0C0000000000000001#72 = 12#8 ∧ frameArg 0x0C0000000000000001#72 ≠ 0#64) := by decide
theorem witness_operand_faults_BD : (frameOp 0x020000000000000100#72 = 2#8 ∧ frameArg 0x020000000000000100#72 >>> 8 ≠ 0#64) ∧
    (frameOp 0x0B0000000000000100#72 = 11#8 ∧ frameArg 0x0B0000000000000100#72 >>> 8 ≠ 0#64) ∧
    (frameOp 0x040000000100000000#72 = 4#8 ∧ frameArg 0x040000000100000000#72 >>> 32 ≠ 0#64) ∧
    (frameOp 0x060000000100000000#72 = 6#8 ∧ frameArg 0x060000000100000000#72 >>> 32 ≠ 0#64) ∧
    (frameOp 0x090000000100000000#72 = 9#8 ∧ frameArg 0x090000000100000000#72 >>> 32 ≠ 0#64) := by decide
theorem witness_RdcfgReadsConstants : stale.cfg.wf = true ∧ 2 < (3#8).toNat ∧ ∃ t, step (offering .reset) = .next t :=
  ⟨by decide, by decide, ⟨_, rfl⟩⟩
theorem witness_KpushAppendsByte : (withLength .small 11).cfg.wf = true ∧
    (withLength .small 11).klen.toNat + 1 ≤ (withLength .small 11).cfg.keyCap ∧
    (withLength .small 12).cfg.keyCap < (withLength .small 12).klen.toNat + 1 := by decide
theorem witness_KpushwAppendsWord : (withLength .small 4).cfg.wf = true ∧
    (withLength .small 4).klen.toNat + 8 ≤ (withLength .small 4).cfg.keyCap ∧
    (withLength .small 5).cfg.keyCap < (withLength .small 5).klen.toNat + 8 := by decide
theorem witness_KpushwIsEightKpush : stale.cfg.wf = true ∧ stale.klen.toNat + 8 ≤ stale.cfg.keyCap := by decide
theorem witness_KeySequencePresentsKey : stale.cfg.wf = true ∧ (List.replicate 12 0x61#8).length ≤ stale.cfg.keyCap ∧
    stale.cfg.keyCap < (List.replicate 13 0x61#8).length := by decide
theorem witness_HashReadsOnlyTheKey :
    ∀ a, a < 1 → (fun _ => 0#8 : Nat → Byte) a = (fun a => if a < 1 then 0#8 else 1#8 : Nat → Byte) a := by decide
theorem witness_TailIsLittleEndian : 0 < 8 ∧ 7 < 8 := by decide
theorem witness_HashIsBijectiveInEachBlock : 0 < 8 / 8 ∧ 1 < 23 / 8 := by decide
theorem witness_RehashIsHashOfOneBlock : stale.cfg.wf = true ∧ 8 ≤ stale.cfg.keyCap := by decide
theorem witness_GetbitFillsAndAnswers : stale.cfg.cacheWords ≤ (128#32).toNat / 64 ∧ (127#32).toNat / 64 < stale.cfg.cacheWords := by
  decide
theorem witness_GetbitAnswersStreamBit : stale.CacheHolds [] ∧ (stale.cur = none → [] = stale.keyBytes) ∧
    (127#32).toNat / 64 < stale.cfg.cacheWords ∧ (loaded .small [0x61#8]).CacheHolds (loaded .small [0x61#8]).keyBytes := by
  decide +kernel
theorem witness_GetbitNeverRecomputes : (∃ t, exec (.getbit 127#32) stale = .next t) ∧
    (127#32).toNat / 64 < firstMissing stale.cur ∧ (127#32).toNat / 64 < stale.cfg.cacheWords :=
  ⟨⟨_, rfl⟩, by decide, by decide⟩
theorem witness_GetbitIgnoresKeyOnceCached : stale.cur = some 1 ∧ ∃ t, exec (.getbit 127#32) stale = .next t := ⟨rfl, _, rfl⟩
theorem witness_OnlyCresetAndResetLowerCursor : (∃ t, step (offering (.command 0x010000000000000000#72)) = .next t) ∧
    (∀ rest, (offering (.command 0x010000000000000000#72)).input ≠ .reset :: rest) ∧
    decode 0x010000000000000000#72 ≠ .ok .creset := ⟨⟨_, rfl⟩, by simp [offering], by decide⟩
theorem witness_RdcurReadsCursor : State.reset.cur = none ∧ stale.cur = some 1 ∧ 1 < 2 ^ 64 ∧ stale.legal = true ∧
    ∃ t, exec .creset stale = .next t := ⟨rfl, rfl, by decide, by decide +kernel, _, rfl⟩
theorem witness_RdwReadsOnlyValidWords : stale.cur = some 1 ∧ (1#32).toNat ≤ 1 ∧ 1 < (2#32).toNat ∧
    State.reset.cur = none ∧ stale.legal = true ∧ stale.cfg.cacheWords ≤ (2#32).toNat := by decide +kernel
theorem witness_ReadCommandsRepeat : ∃ t r, exec (.rdw 1#32) stale = .next t ∧ t.output = stale.output ++ [r] ∧
    r.status = .ok := ⟨_, _, rfl, rfl, rfl⟩
theorem witness_ResetIsLegal : Config.wf { seed := 0#32, cacheWords := 1, keyCap := 0 } = true ∧
    Config.wf { seed := 0xFFFFFFFF#32, cacheWords := 2 ^ 26, keyCap := 2 ^ 32 - 1 } = true := by decide
theorem witness_StepKeepsLegal : (offering (.command (encode (.kpush 0#8)))).legal = true ∧
    ∃ t, step (offering (.command (encode (.kpush 0#8)))) = .next t := ⟨by decide +kernel, _, rfl⟩
theorem witness_StepKeepsCacheValid : (offering (.command (encode (.getbit 127#32)))).CacheValid ∧
    ∃ t, step (offering (.command (encode (.getbit 127#32)))) = .next t :=
  ⟨⟨[], by decide +kernel⟩, _, rfl⟩
/-- Word 0 of the current key computed by the step; the stale cache of another key; RST and CRESET. -/
theorem witness_StepKeepsCacheValid_key :
    (∃ t, step ((loaded .small [0x61#8]).offer (encode (.getbit 0#32))) = .next t ∧ t.cur ≠ none) ∧
    (loaded .small [0x61#8]).cur = none ∧
    (stale.CacheHolds [] ∧ stale.cur ≠ none ∧ [] ≠ stale.keyBytes ∧ ∃ t, step stale = .next t) ∧
    (∃ t, step (offering .reset) = .next t) ∧
    (∃ t, step (offering (.command (encode .creset))) = .next t ∧ decode (encode .creset) = .ok .creset) :=
  ⟨⟨after (loaded .small [0x61#8]) (encode (.getbit 0#32)), rfl, by decide +kernel⟩, by decide +kernel,
    ⟨by decide +kernel, by decide, by decide +kernel, _, rfl⟩, ⟨_, rfl⟩, _, rfl, by decide⟩
theorem witness_StepKeepsCanonicalForm : Memory.wf stale.key = true ∧ Cells.wf stale.words = true ∧
    ∃ t, step stale = .next t := ⟨by decide, by decide, _, rfl⟩
theorem witness_StepCannotTellAlikeStates :
    stale.Alike { stale with key := [(0, 0x61#8), (7, 0x11#8)], words := stale.words ++ [(5, 1#64)] } ∧
    (∃ t, step stale = .next t) :=
  ⟨⟨rfl, rfl, rfl, rfl, rfl, rfl, by decide, by decide⟩, _, rfl⟩
theorem witness_BucketInRange : ∃ t, selectWith askBlock .small 10 (loaded .small [0x64#8]) = (.bucket 9, t) :=
  ⟨_, Prod.ext (show (selectWith askBlock .small 10 (loaded .small [0x64#8])).1 = .bucket 9 by decide +kernel) rfl⟩
theorem witness_PoolSizeSettledWithoutBlock : 2 ^ HostConfig.small.shift < 17 ∧ 1 ≤ 1 ∧ 0 ≤ 1 := by decide
theorem witness_TreeDepthIsLeast : 5 ≤ 2 ^ 3 ∧ 2 ≤ 5 := by decide
theorem witness_ClientIndicesBounded : HostConfig.small.wf = true := by decide
theorem witness_CachedClientComputesBucket : Config.small.wf = true ∧ HostConfig.small.wf = true ∧
    HostConfig.fitsCache .small Config.small = true ∧
    (after (loaded .small [0x64#8]) 0x060000000000000010#72).CacheValidNow := by decide +kernel
theorem witness_SelectBucketComputesBucket : stale.cfg.wf = true ∧ HostConfig.small.wf = true ∧
    HostConfig.fitsCache .small stale.cfg = true ∧ (List.replicate 12 0x61#8).length ≤ stale.cfg.keyCap := by decide

end Sys2Proof.Tests
end

/-! PROOFS, scope: every frame is answered, every list of moves runs to its end, every step keeps the state legal. -/

/- What a command does, said once for every command. -/
section
namespace Sys2Proof.Machine

/-- What a command that answers OK can do to the architectural state, before its response is appended (R32): the cases
in which it writes carry the bound that the command checked. -/
inductive State.OkEffect (s : State) : State → Prop where
  | unchanged : OkEffect s s
  | keyCleared : OkEffect s (s.setKlen 0#32)
  | keyAppended (n : Nat) (v : Word) (room : s.keyRoom n = true) : OkEffect s (s.appendKey n v)
  | cursorCleared : OkEffect s (s.setCur none)
  | filled (order : Nat) (inRange : order < s.cfg.cacheWords) : OkEffect s (s.fillTo order)

/-- Every command either takes a fault from the state before it, or answers OK on top of one of the five effects. -/
theorem exec_cases (i : Instr) (s : State) :
    (∃ c, exec i s = .next (s.takeFault c)) ∨
    (∃ u d, s.OkEffect u ∧ exec i s = .next (u.respond d)) := by
  cases i with
  | nop => exact .inr ⟨_, _, .unchanged, rfl⟩
  | kclr => exact .inr ⟨_, _, .keyCleared, rfl⟩
  | kpush b =>
    simp only [exec, execKpush]
    split
    · exact .inr ⟨_, _, .keyAppended _ _ ‹_›, rfl⟩
    · exact .inl ⟨_, rfl⟩
  | kpushw w =>
    simp only [exec, execKpushw]
    split
    · exact .inr ⟨_, _, .keyAppended _ _ ‹_›, rfl⟩
    · exact .inl ⟨_, rfl⟩
  | mhash seed => exact .inr ⟨_, _, .unchanged, rfl⟩
  | rhash w => exact .inr ⟨_, _, .unchanged, rfl⟩
  | getbit i =>
    simp only [exec, execGetbit]
    split
    · exact .inl ⟨_, rfl⟩
    · exact .inr ⟨_, _, .filled _ (Nat.lt_of_not_le ‹_›), rfl⟩
  | creset => exact .inr ⟨_, _, .cursorCleared, rfl⟩
  | rdcur => exact .inr ⟨_, _, .unchanged, rfl⟩
  | rdw n =>
    simp only [exec, execRdw]
    split
    · exact .inr ⟨_, _, .unchanged, rfl⟩
    · exact .inl ⟨_, rfl⟩
  | rdklen => exact .inr ⟨_, _, .unchanged, rfl⟩
  | rdcfg sel =>
    simp only [exec, execRdcfg]
    split
    · exact .inr ⟨_, _, .unchanged, rfl⟩
    · exact .inl ⟨_, rfl⟩
  | rderr => exact .inr ⟨_, _, .unchanged, rfl⟩

/-- What a step can do, with the command's effect in place of the command: nothing, a hardware reset, a fault, or an OK
response on top of one of the five effects. -/
theorem step_effects (s : State) :
    (s.input = [] ∧ step s = .next s) ∨
    (∃ rest, s.input = .reset :: rest ∧ step s = .next (State.applyReset { s with input := rest })) ∨
    (∃ f rest c, s.input = .command f :: rest ∧ step s = .next (State.takeFault { s with input := rest } c)) ∨
    (∃ f rest u d, s.input = .command f :: rest ∧ State.OkEffect { s with input := rest } u ∧
      step s = .next (u.respond d)) := by
  obtain idle | rst | ⟨f, rest, c, hin, -, hstep⟩ | ⟨f, rest, i, hin, -, hstep⟩ := step_cases s
  · exact .inl idle
  · exact .inr (.inl rst)
  · exact .inr (.inr (.inl ⟨f, rest, c, hin, hstep⟩))
  · obtain ⟨c, hexec⟩ | ⟨u, d, heffect, hexec⟩ := exec_cases i { s with input := rest }
    · exact .inr (.inr (.inl ⟨f, rest, c, hin, hstep.trans hexec⟩))
    · exact .inr (.inr (.inr ⟨f, rest, u, d, hin, heffect, hstep.trans hexec⟩))

/-- GETBIT's fill of an order beyond the cursor (R124). -/
theorem State.fillTo_missing (s : State) (order : Nat) (h : firstMissing s.cur ≤ order) :
    s.fillTo order =
      (s.fillWords (firstMissing s.cur) (order + 1 - firstMissing s.cur)).setCur (some order) := by
  simp [State.fillTo, h]

/-- What no OK effect touches: the parameters, the latch and the two channels (R32). -/
theorem State.OkEffect.frame {s u : State} (h : s.OkEffect u) :
    u.cfg = s.cfg ∧ u.err = s.err ∧ u.input = s.input ∧ u.output = s.output := by
  cases h with
  | unchanged => exact ⟨rfl, rfl, rfl, rfl⟩
  | keyCleared => exact ⟨rfl, rfl, rfl, rfl⟩
  | keyAppended n v room => exact ⟨rfl, rfl, rfl, rfl⟩
  | cursorCleared => exact ⟨rfl, rfl, rfl, rfl⟩
  | filled order inRange => rw [State.fillTo_frame]; exact ⟨rfl, rfl, rfl, rfl⟩

end Sys2Proof.Machine
end

/- Every frame is answered, and every list of moves runs to its end. -/
section
namespace Sys2Proof.Machine

/-- Settles O9: a frame ends in a fault or in an OK response, and either appends the one response. -/
theorem everyFrameGetsOneResponse : Obligations.EveryFrameGetsOneResponse := by
  intro s f rest hin
  obtain ⟨hidle, -⟩ | ⟨_, hrst, -⟩ | ⟨_, rest', c, hcmd, hstep⟩ | ⟨_, rest', u, d, hcmd, heffect, hstep⟩ :=
    step_effects s
  · simp [hin] at hidle
  · simp [hin] at hrst
  · obtain rfl : rest = rest' := (List.cons.inj (hin.symm.trans hcmd)).2
    exact ⟨_, { status := .fault c, data := 0#64 }, hstep, rfl, fun _ => rfl, rfl, rfl⟩
  · obtain rfl : rest = rest' := (List.cons.inj (hin.symm.trans hcmd)).2
    obtain ⟨hcfg, -, hinput, houtput⟩ := heffect.frame
    exact ⟨_, { status := .ok, data := d }, hstep, by simp [houtput], by simp, hinput, hcfg⟩

theorem run_succ_of_step {s t : State} (k : Nat) (h : step s = .next t) : run (k + 1) s = run k t := by
  have hcore : Sys2Proof.core.step s = .next t := h
  have hrun : Sys2Proof.core.run (k + 1) s = Sys2Proof.core.run k t := by
    simp only [Host.Core.run, hcore]
  exact hrun

/-- A run of as many steps as there are moves, with the list as a variable of its own: each step takes one move off. -/
theorem run_moves (moves : List HostMove) (s : State) (hin : s.input = moves) :
    ∃ t, run moves.length s = .next t ∧ t.input = [] ∧
      t.output.length = s.output.length + (moves.filter (fun m => m != HostMove.reset)).length := by
  induction moves generalizing s with
  | nil => exact ⟨s, rfl, hin, rfl⟩
  | cons move rest ih =>
    cases move with
    | command f =>
      obtain ⟨t, r, hstep, houtput, -, hrest, -⟩ := everyFrameGetsOneResponse s f rest hin
      obtain ⟨u, hrun, hend, hlength⟩ := ih t hrest
      refine ⟨u, (run_succ_of_step _ hstep).trans hrun, hend, ?_⟩
      rw [hlength, houtput, List.length_append, List.length_singleton, List.filter_cons_of_pos rfl, List.length_cons]
      omega
    | reset =>
      obtain ⟨u, hrun, hend, hlength⟩ := ih (State.applyReset { s with input := rest }) rfl
      exact ⟨u, (run_succ_of_step _ (step_rst hin)).trans hrun, hend, by simpa using hlength⟩

/-- Settles O10, by induction on the list of moves. -/
theorem everyMoveListRunsToItsEnd : Obligations.EveryMoveListRunsToItsEnd :=
  fun s => run_moves s.input s rfl

end Sys2Proof.Machine
end

/- The legal states as an invariant: both arrays are filled from address 0 up to a bound that a push or a fill raises. -/
section
namespace Sys2Proof.Machine

/-- The rule `KEY` with `KLEN` and `W` with `CUR` share (R21, R22, R24, R25, R30): in an array of `cap` cells the first `n`
have been written, nothing lies outside, and the storage is in canonical form. -/
structure Cells.FilledTo {w : Nat} (m : Cells w) (cap n : Nat) : Prop where
  bound : n ≤ cap
  canonical : Cells.wf m = true
  inside : m.all (fun c => decide (c.1 < cap)) = true
  written : ∀ a, a < n → (Cells.read? m a).isSome = true

theorem Cells.filledTo_nil {w : Nat} (cap : Nat) : Cells.FilledTo ([] : Cells w) cap 0 :=
  ⟨Nat.zero_le _, rfl, rfl, fun _ h => absurd h (Nat.not_lt_zero _)⟩

theorem Cells.FilledTo.mono {w : Nat} {m : Cells w} {cap n k : Nat} (h : m.FilledTo cap n) (hk : k ≤ n) :
    m.FilledTo cap k :=
  ⟨hk.trans h.bound, h.canonical, h.inside, fun a ha => h.written a (by omega)⟩

/-- Writing the next free cell. -/
theorem Cells.FilledTo.write {w : Nat} {m : Cells w} {cap n : Nat} (h : m.FilledTo cap n) (hn : n < cap)
    (v : BitVec w) : (Cells.write m n v).FilledTo cap (n + 1) where
  bound := hn
  canonical := Cells.wf_write m n v h.canonical
  inside := Cells.all_write m n v (fun a => decide (a < cap)) h.inside (by simpa using hn)
  written a ha := by
    rw [Cells.read?_write]
    split
    · rfl
    · exact h.written a (by omega)

/-- `MemWrite` at the next free offset (R82, R83). -/
theorem Cells.FilledTo.memWrite {m : Memory} {cap n : Nat} (h : Cells.FilledTo (w := 8) m cap n) (k : Nat)
    (hk : n + k ≤ cap) (v : Word) : Cells.FilledTo (w := 8) (memWrite m n k v) cap (n + k) := by
  induction k with
  | zero => exact h
  | succ k ih =>
    rw [memWrite_succ]
    exact (ih (by omega)).write (by omega) _

/-- GETBIT's fill from the next free entry (R124). -/
theorem State.fillWords_filledTo (s : State) {cap first : Nat} (count : Nat) (h : s.words.FilledTo cap first)
    (hcount : first + count ≤ cap) : (s.fillWords first count).words.FilledTo cap (first + count) := by
  induction count generalizing s first with
  | zero => exact h
  | succ count ih =>
    rw [State.fillWords_succ, show first + (count + 1) = first + 1 + count by omega]
    exact ih _ (h.write (by omega) _) (by omega)

theorem State.keyLegal_iff (s : State) :
    s.keyLegal = true ↔ Cells.FilledTo (w := 8) s.key s.cfg.keyCap s.klen.toNat := by
  simp only [State.keyLegal, Memory.wf, Bool.and_eq_true, decide_eq_true_eq, and_assoc]
  exact ⟨fun ⟨bound, canonical, inside, written⟩ => ⟨bound, canonical, inside, by simpa using written⟩,
    fun h => ⟨h.bound, h.canonical, h.inside, by simpa using h.written⟩⟩

theorem State.cacheLegal_iff (s : State) :
    s.cacheLegal = true ↔ s.words.FilledTo s.cfg.cacheWords (firstMissing s.cur) := by
  simp only [State.cacheLegal, Bool.and_eq_true, decide_eq_true_eq, and_assoc]
  exact ⟨fun ⟨bound, canonical, inside, written⟩ => ⟨bound, canonical, inside, by simpa using written⟩,
    fun h => ⟨h.bound, h.canonical, h.inside, by simpa using h.written⟩⟩

theorem State.legal_iff (s : State) :
    s.legal = true ↔ s.cfg.wf = true ∧ Cells.FilledTo (w := 8) s.key s.cfg.keyCap s.klen.toNat ∧
      s.words.FilledTo s.cfg.cacheWords (firstMissing s.cur) ∧ errLegal s.err = true := by
  simp only [State.legal, Bool.and_eq_true, State.keyLegal_iff, State.cacheLegal_iff, and_assoc]

theorem Config.keyCap_lt_of_wf {c : Config} (h : c.wf = true) : c.keyCap < 2 ^ 32 := by
  simp only [Config.wf, Bool.and_eq_true, decide_eq_true_eq] at h
  omega

theorem errLegal_errOf (c : CommandFault) : errLegal (errOf c) = true := by
  cases c <;> decide

/-- The latch takes a code of R171 or keeps its value (R173). -/
theorem errLegal_latchErr {e : BitVec 16} (c : CommandFault) (h : errLegal e = true) :
    errLegal (latchErr e c) = true := by
  unfold latchErr
  split
  · exact h
  · exact errLegal_errOf c

theorem State.klen_appendKey_toNat {s : State} {n : Nat} (v : Word) (hwf : s.cfg.wf = true)
    (room : s.klen.toNat + n ≤ s.cfg.keyCap) : (s.appendKey n v).klen.toNat = s.klen.toNat + n := by
  have hcap := Config.keyCap_lt_of_wf hwf
  simp only [State.appendKey_klen, BitVec.toNat_add, BitVec.toNat_ofNat]
  omega

theorem State.legal_takeFault {s : State} (c : CommandFault) (h : s.legal = true) :
    (s.takeFault c).legal = true := by
  obtain ⟨hwf, hkey, hwords, herr⟩ := s.legal_iff.mp h
  exact (State.legal_iff _).mpr ⟨hwf, hkey, hwords, errLegal_latchErr c herr⟩

theorem State.legal_respond (s : State) (d : Word) : (s.respond d).legal = s.legal := rfl

theorem State.legal_appendKey {s : State} {n : Nat} (v : Word) (h : s.legal = true) (room : s.keyRoom n = true) :
    (s.appendKey n v).legal = true := by
  obtain ⟨hwf, hkey, hwords, herr⟩ := s.legal_iff.mp h
  have hroom : s.klen.toNat + n ≤ s.cfg.keyCap := by simpa [State.keyRoom] using room
  refine (State.legal_iff _).mpr ⟨hwf, ?_, hwords, herr⟩
  rw [State.klen_appendKey_toNat v hwf hroom]
  exact hkey.memWrite n hroom v

theorem State.legal_fillTo {s : State} {order : Nat} (h : s.legal = true) (inRange : order < s.cfg.cacheWords) :
    (s.fillTo order).legal = true := by
  obtain ⟨hwf, hkey, hwords, herr⟩ := s.legal_iff.mp h
  rcases Nat.lt_or_ge order (firstMissing s.cur) with hcached | hmissing
  · rwa [s.fillTo_cached order hcached]
  · have hfilled := s.fillWords_filledTo (order + 1 - firstMissing s.cur) hwords (by omega)
    rw [show firstMissing s.cur + (order + 1 - firstMissing s.cur) = order + 1 by omega] at hfilled
    rw [s.fillTo_missing order hmissing, State.fillWords_frame]
    exact (State.legal_iff _).mpr ⟨hwf, hkey, hfilled, herr⟩

theorem State.OkEffect.keeps_legal {s u : State} (heffect : s.OkEffect u) (h : s.legal = true) : u.legal = true := by
  obtain ⟨hwf, hkey, hwords, herr⟩ := s.legal_iff.mp h
  cases heffect with
  | unchanged => exact h
  | keyCleared => exact (State.legal_iff _).mpr ⟨hwf, hkey.mono (Nat.zero_le _), hwords, herr⟩
  | keyAppended n v room => exact State.legal_appendKey v h room
  | cursorCleared => exact (State.legal_iff _).mpr ⟨hwf, hkey, hwords.mono (Nat.zero_le _), herr⟩
  | filled order inRange => exact State.legal_fillTo h inRange

/-- Parameters in range are all that the state after `RST` needs to be legal (R31, R190). -/
theorem State.legal_applyReset {s : State} (hwf : s.cfg.wf = true) : s.applyReset.legal = true :=
  (State.legal_iff _).mpr ⟨hwf, Cells.filledTo_nil _, Cells.filledTo_nil _, rfl⟩

/-- Settles O48, by the cases of a step; the moves still to come are no part of what makes a state legal. -/
theorem stepKeepsLegal : Obligations.StepKeepsLegal := by
  intro s t hlegal hstep
  obtain ⟨hwf, -⟩ := s.legal_iff.mp hlegal
  have hrest (rest : List HostMove) : State.legal { s with input := rest } = true := hlegal
  obtain ⟨-, h⟩ | ⟨rest, -, h⟩ | ⟨f, rest, c, -, h⟩ | ⟨f, rest, u, d, -, heffect, h⟩ := step_effects s <;>
    obtain rfl := Host.Outcome.next.inj (h.symm.trans hstep)
  · exact hlegal
  · exact State.legal_applyReset hwf
  · exact State.legal_takeFault c (hrest rest)
  · rw [State.legal_respond]
    exact heffect.keeps_legal (hrest rest)

end Sys2Proof.Machine
end

/-! PROOFS, state: what each command writes, the cursor and the cache over a step, the canonical form, the latch's fields, the reset state. -/

/- What a command writes, as a function of the command. -/
section
namespace Sys2Proof.Machine

/-- What a command that answers OK has written before its response is appended: R32's write column. -/
def State.effectOf (s : State) : Instr → State
  | .kclr => s.setKlen 0#32
  | .kpush b => s.appendKey 1 (zext64 b)
  | .kpushw w => s.appendKey 8 w
  | .getbit i => s.fillTo (bitOrder i)
  | .creset => s.setCur none
  | .nop | .mhash _ | .rhash _ | .rdcur | .rdw _ | .rdklen | .rdcfg _ | .rderr => s

/-- Every command either takes a fault from the state before it, or answers OK on top of what it writes. -/
theorem exec_effectOf (i : Instr) (s : State) :
    (∃ c, exec i s = .next (s.takeFault c)) ∨ (∃ d, exec i s = .next ((s.effectOf i).respond d)) := by
  cases i with
  | kpush | kpushw | rdw | rdcfg =>
    simp only [exec, execKpush, execKpushw, execRdw, execRdcfg]
    split
    · exact .inr ⟨_, rfl⟩
    · exact .inl ⟨_, rfl⟩
  | getbit j =>
    simp only [exec, execGetbit]
    split
    · exact .inl ⟨_, rfl⟩
    · exact .inr ⟨_, rfl⟩
  | _ => exact .inr ⟨_, rfl⟩

/-- The same as an inversion: what the state after a command can be. -/
theorem exec_inv {i : Instr} {s t : State} (h : exec i s = .next t) :
    (∃ c, t = s.takeFault c) ∨ (∃ d, t = (s.effectOf i).respond d) := by
  obtain ⟨c, hexec⟩ | ⟨d, hexec⟩ := exec_effectOf i s
  · exact .inl ⟨c, Host.Outcome.next.inj (h.symm.trans hexec)⟩
  · exact .inr ⟨d, Host.Outcome.next.inj (h.symm.trans hexec)⟩

@[simp] theorem State.fillTo_cfg (s : State) (order : Nat) : (s.fillTo order).cfg = s.cfg := by
  rw [State.fillTo_frame]
@[simp] theorem State.fillTo_key (s : State) (order : Nat) : (s.fillTo order).key = s.key := by
  rw [State.fillTo_frame]
@[simp] theorem State.fillTo_klen (s : State) (order : Nat) : (s.fillTo order).klen = s.klen := by
  rw [State.fillTo_frame]
@[simp] theorem State.fillTo_err (s : State) (order : Nat) : (s.fillTo order).err = s.err := by
  rw [State.fillTo_frame]
@[simp] theorem State.fillTo_input (s : State) (order : Nat) : (s.fillTo order).input = s.input := by
  rw [State.fillTo_frame]

@[simp] theorem State.effectOf_cfg (s : State) (i : Instr) : (s.effectOf i).cfg = s.cfg := by
  cases i with
  | getbit j => exact s.fillTo_cfg _
  | _ => rfl

@[simp] theorem State.effectOf_input (s : State) (i : Instr) : (s.effectOf i).input = s.input := by
  cases i with
  | getbit j => exact s.fillTo_input _
  | _ => rfl

@[simp] theorem State.effectOf_err (s : State) (i : Instr) : (s.effectOf i).err = s.err := by
  cases i with
  | getbit j => exact s.fillTo_err _
  | _ => rfl

theorem State.effectOf_words {s : State} {i : Instr} (hget : ∀ j, i ≠ .getbit j) :
    (s.effectOf i).words = s.words := by
  cases i with
  | getbit j => exact absurd rfl (hget j)
  | _ => rfl

theorem State.effectOf_cur {s : State} {i : Instr} (hget : ∀ j, i ≠ .getbit j) (hcreset : i ≠ .creset) :
    (s.effectOf i).cur = s.cur := by
  cases i with
  | getbit j => exact absurd rfl (hget j)
  | creset => exact absurd rfl hcreset
  | _ => rfl

theorem State.effectOf_key {s : State} {i : Instr} (hpush : ∀ b, i ≠ .kpush b) (hpushw : ∀ w, i ≠ .kpushw w) :
    (s.effectOf i).key = s.key := by
  cases i with
  | kpush b => exact absurd rfl (hpush b)
  | kpushw w => exact absurd rfl (hpushw w)
  | getbit j => exact s.fillTo_key _
  | _ => rfl

theorem State.effectOf_klen {s : State} {i : Instr} (hpush : ∀ b, i ≠ .kpush b) (hpushw : ∀ w, i ≠ .kpushw w)
    (hclr : i ≠ .kclr) : (s.effectOf i).klen = s.klen := by
  cases i with
  | kpush b => exact absurd rfl (hpush b)
  | kpushw w => exact absurd rfl (hpushw w)
  | kclr => exact absurd rfl hclr
  | getbit j => exact s.fillTo_klen _
  | _ => rfl

/-- Settles O13: a fault writes the latch alone, and its response is not OK; an OK command writes its own state. -/
theorem commandsWriteOnlyTheirState : Obligations.CommandsWriteOnlyTheirState := by
  intro i s t hexec
  obtain ⟨c, rfl⟩ | ⟨d, rfl⟩ := exec_inv hexec
  · refine ⟨rfl, rfl, fun _ => rfl, fun _ _ => rfl, fun _ _ => rfl, fun _ _ _ => rfl, fun d houtput => ?_⟩
    simp at houtput
  · exact ⟨s.effectOf_cfg i, s.effectOf_input i, State.effectOf_words, State.effectOf_cur, State.effectOf_key,
      State.effectOf_klen, fun _ _ => s.effectOf_err i⟩

end Sys2Proof.Machine
end

/- The cursor and the cached words over a step. -/
section
namespace Sys2Proof.Machine

/-- No command but CRESET lowers the cursor or changes a cached word (R22, R125). -/
theorem State.effectOf_keeps_cache {s : State} {i : Instr} (hcreset : i ≠ .creset) :
    firstMissing s.cur ≤ firstMissing (s.effectOf i).cur ∧
      ∀ n, n < firstMissing s.cur → (s.effectOf i).word n = s.word n := by
  cases i with
  | creset => exact absurd rfl hcreset
  | getbit j =>
    obtain ⟨hcur, hkept, -⟩ := s.fillTo_spec (bitOrder j)
    exact ⟨hcur ▸ Nat.le_max_left _ _, fun n hn => hkept n (.inl hn)⟩
  | _ => exact ⟨Nat.le_refl _, fun _ _ => rfl⟩

/-- Settles O41, by the cases of a step: the two moves that lower the cursor are excluded. -/
theorem onlyCresetAndResetLowerCursor : Obligations.OnlyCresetAndResetLowerCursor := by
  intro s t hstep hrst hcreset
  obtain ⟨-, h⟩ | ⟨rest, hin, -⟩ | ⟨f, rest, c, -, -, h⟩ | ⟨f, rest, i, hin, hdecode, h⟩ := step_cases s
  · obtain rfl := Host.Outcome.next.inj (h.symm.trans hstep)
    exact ⟨Nat.le_refl _, fun _ _ => rfl⟩
  · exact absurd hin (hrst rest)
  · obtain rfl := Host.Outcome.next.inj (h.symm.trans hstep)
    exact ⟨Nat.le_refl _, fun _ _ => rfl⟩
  · obtain ⟨c, rfl⟩ | ⟨d, rfl⟩ := exec_inv (h.symm.trans hstep)
    · exact ⟨Nat.le_refl _, fun _ _ => rfl⟩
    · have hi : i ≠ .creset := fun hi => hcreset f rest hin (hi ▸ hdecode)
      exact State.effectOf_keeps_cache (s := { s with input := rest }) hi

end Sys2Proof.Machine
end

/- The cache invariant: what is cached is the stream of one key. -/
section
namespace Sys2Proof.Machine

/-- The Mixing Hash reads the offsets below the length only (R99). -/
theorem mix64_congr {B C : Nat → Byte} (len : Nat) (seed : BitVec 32) (h : ∀ b, b < len → B b = C b) :
    mix64 B len seed = mix64 C len seed := by
  simp only [mix64, mixTail]
  rw [mixBlocks_congr (len / 8) _ fun b hb => h b (by omega),
    foldTail_congr (8 * (len / 8)) (len % 8) _ fun b _ hb => h b (by omega)]

/-- The hash of the key buffer is the hash of the key presented (R80, R97). -/
theorem State.mix64Bytes_keyBytes (s : State) (seed : BitVec 32) :
    mix64Bytes s.keyBytes seed = mix64 s.keyByte s.klen.toNat seed := by
  have hlen : s.keyBytes.length = s.klen.toNat := by simp [State.keyBytes]
  rw [mix64Bytes, hlen]
  exact mix64_congr _ _ fun b hb => by simp [State.keyBytes, hb]

/-- An empty cache holds the stream of every key (R23). -/
theorem State.cacheHolds_of_cur_none {s : State} (K : List Byte) (h : s.cur = none) : s.CacheHolds K := by
  intro n hn
  rw [h, firstMissing_none] at hn
  exact absurd hn (Nat.not_lt_zero n)

/-- The value GETBIT computes for the first entry is word 0 of the current key's stream (R120, R124). -/
theorem State.nextWord_zero_fillTo (s : State) (order : Nat) :
    (s.fillTo order).nextWord 0 = streamWord s.cfg.seed s.keyBytes 0 := by
  rw [State.fillTo_frame, streamWord_zero, State.mix64Bytes_keyBytes]
  rfl

/-- GETBIT's fill continues the stream that the cache holds, by induction on the entry; an empty cache begins the current
key's stream (R120, R124). -/
theorem State.fillTo_cacheHolds {s : State} {K : List Byte} (order : Nat) (hK : s.CacheHolds K)
    (hnow : s.cur = none → K = s.keyBytes) : (s.fillTo order).CacheHolds K := by
  obtain ⟨-, hkept, hnew⟩ := s.fillTo_spec order
  intro n hn
  rw [State.fillTo_cfg]
  induction n with
  | zero =>
    cases hcur : s.cur with
    | none => rw [hnew 0 (by simp [hcur, firstMissing_none]) hn, State.nextWord_zero_fillTo, hnow hcur]
    | some c =>
      have hcached : 0 < firstMissing s.cur := by simp [hcur, firstMissing_some]
      rw [hkept 0 (.inl hcached), hK 0 hcached]
  | succ n ih =>
    rcases Nat.lt_or_ge (n + 1) (firstMissing s.cur) with hcached | hmissing
    · rw [hkept _ (.inl hcached), hK _ hcached]
    · rw [hnew _ hmissing hn, State.nextWord, State.fillTo_cfg, ih (by omega), streamWord_succ]

theorem State.OkEffect.keeps_cacheHolds {s u : State} {K : List Byte} (heffect : s.OkEffect u) (hK : s.CacheHolds K)
    (hnow : s.cur = none → K = s.keyBytes) : u.CacheHolds K := by
  cases heffect with
  | unchanged | keyCleared | keyAppended => exact hK
  | cursorCleared => exact State.cacheHolds_of_cur_none K rfl
  | filled order inRange => exact State.fillTo_cacheHolds order hK hnow

/-- Every step keeps the stream that the cache holds, whether or not it empties the cache (R23). -/
theorem step_keeps_cacheHolds {s t : State} {K : List Byte} (hK : s.CacheHolds K)
    (hnow : s.cur = none → K = s.keyBytes) (hstep : step s = .next t) : t.CacheHolds K := by
  obtain ⟨-, h⟩ | ⟨rest, -, h⟩ | ⟨f, rest, c, -, h⟩ | ⟨f, rest, u, d, -, heffect, h⟩ := step_effects s <;>
    obtain rfl := Host.Outcome.next.inj (h.symm.trans hstep)
  · exact hK
  · exact State.cacheHolds_of_cur_none K rfl
  · exact hK
  · exact heffect.keeps_cacheHolds hK hnow

theorem step_rst_cur {s t : State} {rest : List HostMove} (hin : s.input = .reset :: rest) (hstep : step s = .next t) :
    t.cur = none := by
  obtain rfl := Host.Outcome.next.inj ((step_rst hin).symm.trans hstep)
  rfl

theorem step_creset_cur {s t : State} {f : Frame} {rest : List HostMove} (hin : s.input = .command f :: rest)
    (hdecode : decode f = .ok .creset) (hstep : step s = .next t) : t.cur = none := by
  have hexec : exec .creset { s with input := rest } = .next t := by
    rw [← hstep, step_command hin, runFrame_ok _ hdecode]
  obtain rfl := Host.Outcome.next.inj hexec
  rfl

/-- A valid cache stays valid: an empty one is valid for the current key, any other for the key it holds. -/
theorem step_keeps_cacheValid {s t : State} (hvalid : s.CacheValid) (hstep : step s = .next t) : t.CacheValid := by
  obtain ⟨K, hK⟩ := hvalid
  by_cases hcur : s.cur = none
  · exact ⟨s.keyBytes, step_keeps_cacheHolds (State.cacheHolds_of_cur_none _ hcur) (fun _ => rfl) hstep⟩
  · exact ⟨K, step_keeps_cacheHolds hK (fun hnone => absurd hnone hcur) hstep⟩

/-- Settles O49: the key is the one the cache holds, or the current one while nothing is cached. -/
theorem stepKeepsCacheValid : Obligations.StepKeepsCacheValid :=
  ⟨fun _ _ _ hK hnow hstep _ => step_keeps_cacheHolds hK hnow hstep, fun _ _ _ => step_rst_cur,
    fun _ _ _ _ => step_creset_cur, fun _ _ => step_keeps_cacheValid⟩

end Sys2Proof.Machine
end

/- The canonical form of both arrays. -/
section
namespace Sys2Proof.Machine

theorem State.wf_fillWords (s : State) (first count : Nat) (h : Cells.wf s.words = true) :
    Cells.wf (s.fillWords first count).words = true := by
  induction count generalizing s first with
  | zero => exact h
  | succ count ih => exact ih _ _ (Cells.wf_write _ _ _ h)

theorem State.wf_fillTo (s : State) (order : Nat) (h : Cells.wf s.words = true) :
    Cells.wf (s.fillTo order).words = true := by
  rcases Nat.lt_or_ge order (firstMissing s.cur) with hcached | hmissing
  · rwa [s.fillTo_cached order hcached]
  · rw [s.fillTo_missing order hmissing]
    exact s.wf_fillWords _ _ h

theorem State.OkEffect.keeps_canonical {s u : State} (heffect : s.OkEffect u) (hkey : Memory.wf s.key = true)
    (hwords : Cells.wf s.words = true) : Memory.wf u.key = true ∧ Cells.wf u.words = true := by
  cases heffect with
  | unchanged | keyCleared | cursorCleared => exact ⟨hkey, hwords⟩
  | keyAppended n v room => exact ⟨Memory.wf_memWrite _ _ _ _ hkey, hwords⟩
  | filled order inRange => exact ⟨(s.fillTo_key order).symm ▸ hkey, s.wf_fillTo order hwords⟩

/-- Settles O50, by the cases of a step. -/
theorem stepKeepsCanonicalForm : Obligations.StepKeepsCanonicalForm := by
  intro s t hkey hwords hstep
  obtain ⟨-, h⟩ | ⟨rest, -, h⟩ | ⟨f, rest, c, -, h⟩ | ⟨f, rest, u, d, -, heffect, h⟩ := step_effects s <;>
    obtain rfl := Host.Outcome.next.inj (h.symm.trans hstep)
  · exact ⟨hkey, hwords⟩
  · exact ⟨rfl, rfl⟩
  · exact ⟨hkey, hwords⟩
  · exact heffect.keeps_canonical hkey hwords

end Sys2Proof.Machine
end

/- The step of a decoded frame, the latch's fields, and the reset state. -/
section
namespace Sys2Proof.Machine

/-- Settles O8: the move is taken off the channel, the frame decoded, the command run. -/
theorem stepRunsDecodedCommand : Obligations.StepRunsDecodedCommand :=
  fun _ _ _ _ hin hdecode => (step_command hin).trans (runFrame_ok _ hdecode)

/-- Settles O12. -/
theorem resetStateValues : Obligations.ResetStateValues :=
  fun _ => ⟨rfl, rfl, rfl, fun _ => rfl, fun _ => rfl⟩

/-- The legal values of `ERR`: no fault recorded, or one cause (R26). -/
theorem errLegal_iff (e : BitVec 16) : errLegal e = true ↔ e = 0#16 ∨ ∃ c, e = errOf c := by
  simp only [errLegal, Bool.or_eq_true, beq_iff_eq]
  constructor
  · rintro (((((rfl | rfl) | rfl) | rfl) | rfl) | rfl)
    exacts [.inl rfl, .inr ⟨_, rfl⟩, .inr ⟨_, rfl⟩, .inr ⟨_, rfl⟩, .inr ⟨_, rfl⟩, .inr ⟨_, rfl⟩]
  · rintro (rfl | ⟨c, rfl⟩)
    · simp
    · cases c <;> simp

@[simp] theorem errF_errOf (c : CommandFault) : errF (errOf c) = true := by
  cases c <;> decide

@[simp] theorem errCause_errOf (c : CommandFault) : errCause (errOf c) = c.code := by
  cases c <;> decide

theorem errOf_reserved (c : CommandFault) : (errOf c).extractLsb' 1 7 = 0#7 := by
  cases c <;> decide

/-- The fault codes run from 1 to 5 (R171). -/
theorem faultCode_range (c : CommandFault) : 1 ≤ c.code.toNat ∧ c.code.toNat ≤ 5 := by
  cases c <;> decide

/-- Settles O17: a legal latch is zero or records one cause. -/
theorem legalLatchFields : Obligations.LegalLatchFields := by
  intro e he
  obtain rfl | ⟨c, rfl⟩ := (errLegal_iff e).mp he
  · decide
  · refine ⟨errOf_reserved c, fun hclear => ?_, fun _ => ?_⟩
    · simp at hclear
    · rw [errCause_errOf]
      exact faultCode_range c

/-- Settles O47: the reset state is what `RST` makes of itself, and its cache is empty. -/
theorem resetIsLegal : Obligations.ResetIsLegal :=
  fun c hwf => ⟨State.legal_applyReset (s := State.resetWith c) hwf, [], State.cacheHolds_of_cur_none [] rfl⟩

end Sys2Proof.Machine
end

/-! PROOFS, memory: a tail is one little-endian integer, a reading command repeats its answer, CRESET forgets the cache. -/

/- Little-endian bytes: adding a byte above the bits in use is folding it in with xor. -/
section
namespace Sys2Proof.Machine

/-- Addition without a carry: nothing of `x` lies at bit `m` or above, and nothing of `y <<< m` below it. -/
theorem add_shiftLeft_eq_xor {x : Word} {m : Nat} (y : Word) (hx : ∀ k, m ≤ k → x.getLsbD k = false) :
    x + y <<< m = x ^^^ y <<< m := by
  have hbit (k : Nat) : x.getLsbD k = false ∨ (y <<< m).getLsbD k = false := by
    rcases Nat.lt_or_ge k m with hlow | hhigh
    · exact .inr (by simp [hlow])
    · exact .inl (hx k hhigh)
  have hdisjoint : x &&& y <<< m = 0#64 := by
    apply BitVec.eq_of_getLsbD_eq
    intro k _
    rw [BitVec.getLsbD_and, BitVec.getLsbD_zero, Bool.and_eq_false_iff]
    exact hbit k
  rw [BitVec.add_eq_or_of_and_eq_zero _ _ hdisjoint]
  apply BitVec.eq_of_getLsbD_eq
  intro k _
  rw [BitVec.getLsbD_or, BitVec.getLsbD_xor]
  rcases hbit k with hk | hk <;> simp [hk]

/-- `MemRead(a, n)` is an integer of `8n` bits (R12, R40). -/
theorem getLsbD_memRead_of_ge (B : Nat → Byte) (a n : Nat) :
    ∀ k, 8 * n ≤ k → (memRead B a n).getLsbD k = false := by
  induction n with
  | zero => simp
  | succ n ih =>
    intro k hk
    have hbyte : (B (a + n)).getLsbD (k - 8 * n) = false := BitVec.getLsbD_of_ge _ _ (by omega)
    rw [memRead_succ, add_shiftLeft_eq_xor _ ih, BitVec.getLsbD_xor, ih k (by omega)]
    simp [zext64, hbyte]

theorem memRead_succ_xor (B : Nat → Byte) (a n : Nat) :
    memRead B a (n + 1) = memRead B a n ^^^ (zext64 (B (a + n)) <<< (8 * n)) := by
  rw [memRead_succ, add_shiftLeft_eq_xor _ (getLsbD_memRead_of_ge B a n)]

/-- The tail fold is one xor with the bytes' little-endian integer (R41, R95). -/
theorem foldTail_eq_xor_memRead (B : Nat → Byte) (o t : Nat) (h : Word) :
    foldTail B o t h = h ^^^ memRead B o t := by
  induction t with
  | zero => simp
  | succ t ih => rw [foldTail_succ, ih, memRead_succ_xor, BitVec.xor_assoc]

/-- Settles O30; the bound on `t` is not needed, since a byte at offset 8 or above is shifted out on both sides. -/
theorem tailIsLittleEndian : Obligations.TailIsLittleEndian := by
  intro B o t h _
  rw [mixTail, foldTail_eq_xor_memRead]

end Sys2Proof.Machine
end

/- What a command answers, as a function of the command, and what the answer depends on. -/
section
namespace Sys2Proof.Machine

/-- What a command answers: the data of an OK response, or the cause of its fault (R61, R171). -/
def State.answerOf (s : State) : Instr → Except CommandFault Word
  | .nop | .kclr | .creset => .ok 0#64
  | .kpush _ => if s.keyRoom 1 then .ok 0#64 else .error .keyOverflow
  | .kpushw _ => if s.keyRoom 8 then .ok 0#64 else .error .keyOverflow
  | .mhash seed => .ok (mix64 s.keyByte s.klen.toNat seed)
  | .rhash w => .ok (rehash64 s.cfg.seed w)
  | .getbit j =>
    if s.cfg.cacheWords ≤ bitOrder j then .error .cacheRange
    else .ok (selectBit ((s.fillTo (bitOrder j)).word (bitOrder j)) (bitPosition j))
  | .rdcur => .ok (cursorData s.cur)
  | .rdw n => if n.toNat < firstMissing s.cur then .ok (s.word n.toNat) else .error .wordInvalid
  | .rdklen => .ok (zext64 s.klen)
  | .rdcfg sel => (cfgConstant s.cfg sel).elim (.error .illegalOperand) .ok
  | .rderr => .ok (zext64 s.err)

/-- The state after a command whose answer is known (R61, R172). -/
def State.finish (s : State) (i : Instr) : Except CommandFault Word → State
  | .ok d => (s.effectOf i).respond d
  | .error c => s.takeFault c

/-- A command is its effect and its answer. -/
theorem exec_eq_finish (i : Instr) (s : State) : exec i s = .next (s.finish i (s.answerOf i)) := by
  cases i with
  | kpush | kpushw | getbit | rdw =>
    simp only [exec, execKpush, execKpushw, execGetbit, execRdw, State.answerOf]
    split <;> rfl
  | rdcfg sel =>
    simp only [exec, execRdcfg, State.answerOf]
    cases cfgConstant s.cfg sel <;> rfl
  | _ => rfl

/-- Two states that agree in all that a command may read: `State.Alike` without the channels (R192). -/
structure State.SameReadable (s t : State) : Prop where
  cfg : s.cfg = t.cfg
  cur : s.cur = t.cur
  klen : s.klen = t.klen
  err : s.err = t.err
  keyByte : ∀ a, a < s.klen.toNat → s.keyByte a = t.keyByte a
  word : ∀ n, n < firstMissing s.cur → s.word n = t.word n

theorem State.Alike.sameReadable {s t : State} (h : s.Alike t) : s.SameReadable t :=
  ⟨h.cfg, h.cur, h.klen, h.err, h.keyByte, h.word⟩

theorem State.SameReadable.alike {s t : State} (h : s.SameReadable t) (hinput : s.input = t.input)
    (houtput : s.output = t.output) : s.Alike t :=
  ⟨h.cfg, h.cur, h.klen, h.err, hinput, houtput, h.keyByte, h.word⟩

/-- The responses returned so far are nothing that a command may read. -/
theorem State.sameReadable_respond (s : State) (d : Word) : s.SameReadable (s.respond d) :=
  ⟨rfl, rfl, rfl, rfl, fun _ _ => rfl, fun _ _ => rfl⟩

theorem State.fillTo_cur (s : State) (order : Nat) :
    (s.fillTo order).cur = if firstMissing s.cur ≤ order then some order else s.cur := by
  unfold State.fillTo
  split <;> rfl

@[simp] theorem State.fillTo_output (s : State) (order : Nat) : (s.fillTo order).output = s.output := by
  rw [State.fillTo_frame]

@[simp] theorem State.fillTo_keyByte (s : State) (order : Nat) : (s.fillTo order).keyByte = s.keyByte := by
  rw [State.fillTo_frame]
  rfl

@[simp] theorem State.effectOf_output (s : State) (i : Instr) : (s.effectOf i).output = s.output := by
  cases i with
  | getbit j => exact s.fillTo_output _
  | _ => rfl

namespace State.SameReadable

variable {s t : State}

/-- The hash reads the key presented and no byte beyond it (R99). -/
theorem mix64_eq (h : s.SameReadable t) (seed : BitVec 32) :
    mix64 s.keyByte s.klen.toNat seed = mix64 t.keyByte t.klen.toNat seed := by
  rw [← h.klen]
  exact mix64_congr _ _ h.keyByte

/-- GETBIT's fill computes the same words, by induction on the entry: each comes from the one before it (R124). -/
theorem fillTo (h : s.SameReadable t) (order : Nat) : (s.fillTo order).SameReadable (t.fillTo order) := by
  have hcur : (s.fillTo order).cur = (t.fillTo order).cur := by rw [State.fillTo_cur, State.fillTo_cur, h.cur]
  obtain ⟨-, hkept, hnew⟩ := s.fillTo_spec order
  obtain ⟨-, hkept', hnew'⟩ := t.fillTo_spec order
  rw [← hcur, ← h.cur] at hnew'
  rw [← h.cur] at hkept'
  refine ⟨by simp [h.cfg], hcur, by simp [h.klen], by simp [h.err], by simpa using h.keyByte, fun n hn => ?_⟩
  induction n with
  | zero =>
    rcases Nat.lt_or_ge 0 (firstMissing s.cur) with hcached | hmissing
    · rw [hkept 0 (.inl hcached), hkept' 0 (.inl hcached), h.word 0 hcached]
    · rw [hnew 0 hmissing hn, hnew' 0 hmissing hn]
      simpa [State.nextWord, ← h.cfg] using h.mix64_eq s.cfg.seed
  | succ n ih =>
    rcases Nat.lt_or_ge (n + 1) (firstMissing s.cur) with hcached | hmissing
    · rw [hkept _ (.inl hcached), hkept' _ (.inl hcached), h.word _ hcached]
    · rw [hnew _ hmissing hn, hnew' _ hmissing hn]
      simp [State.nextWord, h.cfg, ih (by omega)]

theorem keyRoom (h : s.SameReadable t) (n : Nat) : s.keyRoom n = t.keyRoom n := by
  rw [State.keyRoom, State.keyRoom, h.klen, h.cfg]

/-- A push stores the same bytes at the same offsets (R82, R83). -/
theorem appendKey (h : s.SameReadable t) (n : Nat) (v : Word) : (s.appendKey n v).SameReadable (t.appendKey n v) := by
  refine ⟨h.cfg, h.cur, by simp [h.klen], h.err, fun a ha => ?_, h.word⟩
  have hbound : a < s.klen.toNat + n := by
    simp only [State.appendKey_klen, BitVec.toNat_add, BitVec.toNat_ofNat] at ha
    calc
      a < (s.klen.toNat + n % 2 ^ 32) % 2 ^ 32 := ha
      _ ≤ s.klen.toNat + n % 2 ^ 32 := Nat.mod_le _ _
      _ ≤ s.klen.toNat + n := Nat.add_le_add_left (Nat.mod_le _ _) _
  rw [State.keyByte_appendKey, State.keyByte_appendKey, ← h.klen]
  split
  · rfl
  · exact h.keyByte a (by omega)

/-- Every command writes the same into what may be read. -/
theorem effectOf (h : s.SameReadable t) (i : Instr) : (s.effectOf i).SameReadable (t.effectOf i) := by
  cases i with
  | kclr => exact ⟨h.cfg, h.cur, rfl, h.err, fun a ha => absurd ha (Nat.not_lt_zero a), h.word⟩
  | creset => exact ⟨h.cfg, rfl, h.klen, h.err, h.keyByte, fun n hn => absurd hn (Nat.not_lt_zero n)⟩
  | kpush b => exact h.appendKey 1 (zext64 b)
  | kpushw w => exact h.appendKey 8 w
  | getbit j => exact h.fillTo (bitOrder j)
  | _ => exact h

/-- What a command answers depends on nothing else (R99, R131). -/
theorem answerOf (h : s.SameReadable t) (i : Instr) : s.answerOf i = t.answerOf i := by
  cases i with
  | nop | kclr | creset => rfl
  | kpush | kpushw => simp only [State.answerOf, h.keyRoom]
  | mhash seed => simp only [State.answerOf, h.mix64_eq]
  | getbit j =>
    have hfilled : bitOrder j < firstMissing (s.fillTo (bitOrder j)).cur := by
      obtain ⟨hcur, -⟩ := s.fillTo_spec (bitOrder j)
      omega
    simp only [State.answerOf, h.cfg, (h.fillTo (bitOrder j)).word _ hfilled]
  | rdw n =>
    simp only [State.answerOf, ← h.cur]
    split
    · rw [h.word _ ‹_›]
    · rfl
  | rhash | rdcfg => simp only [State.answerOf, h.cfg]
  | rdcur => simp only [State.answerOf, h.cur]
  | rdklen => simp only [State.answerOf, h.klen]
  | rderr => simp only [State.answerOf, h.err]

end State.SameReadable

end Sys2Proof.Machine
end

/- Reading commands change nothing and repeat. -/
section
namespace Sys2Proof.Machine

/-- A command whose response is OK has answered its data on top of its effect; the response of a fault is not OK. -/
theorem exec_ok_inv {i : Instr} {s t : State} {r : Response} (hexec : exec i s = .next t)
    (houtput : t.output = s.output ++ [r]) (hok : r.status = .ok) :
    ∃ d, r = { status := .ok, data := d } ∧ s.answerOf i = .ok d ∧ t = (s.effectOf i).respond d := by
  obtain rfl : s.finish i (s.answerOf i) = t := Host.Outcome.next.inj ((exec_eq_finish i s).symm.trans hexec)
  cases hanswer : s.answerOf i with
  | ok d =>
    obtain rfl : { status := .ok, data := d } = r := by simpa [hanswer, State.finish] using houtput
    exact ⟨d, rfl, rfl, rfl⟩
  | error c =>
    obtain rfl : { status := .fault c, data := 0#64 } = r := by simpa [hanswer, State.finish] using houtput
    simp at hok

/-- Settles O46: a reading command writes nothing, and the response it appends is nothing that it reads. -/
theorem readCommandsRepeat : Obligations.ReadCommandsRepeat := by
  intro i s t r hread hexec houtput hok
  have heffect (u : State) : u.effectOf i = u := by
    obtain rfl | rfl | rfl | ⟨seed, rfl⟩ | ⟨n, rfl⟩ | ⟨sel, rfl⟩ := hread <;> rfl
  obtain ⟨d, rfl, hanswer, rfl⟩ := exec_ok_inv hexec houtput hok
  have hagain : (s.respond d).answerOf i = .ok d := ((s.sameReadable_respond d).answerOf i).symm.trans hanswer
  rw [heffect, exec_eq_finish, hagain, State.finish, heffect]
  exact ⟨rfl, rfl⟩

end Sys2Proof.Machine
end

/- Runs from states that agree in what may be read. -/
section
namespace Sys2Proof.Machine

namespace State.SameReadable

variable {s t : State}

theorem respond (h : s.SameReadable t) (d : Word) : (s.respond d).SameReadable (t.respond d) :=
  ⟨h.cfg, h.cur, h.klen, h.err, h.keyByte, h.word⟩

theorem takeFault (h : s.SameReadable t) (c : CommandFault) : (s.takeFault c).SameReadable (t.takeFault c) :=
  ⟨h.cfg, h.cur, h.klen, by simp [h.err], h.keyByte, h.word⟩

theorem setInput (h : s.SameReadable t) (moves : List HostMove) :
    State.SameReadable { s with input := moves } { t with input := moves } :=
  ⟨h.cfg, h.cur, h.klen, h.err, h.keyByte, h.word⟩

end State.SameReadable

namespace State.Alike

variable {s t : State}

theorem setInput (h : s.Alike t) (moves : List HostMove) :
    State.Alike { s with input := moves } { t with input := moves } :=
  (h.sameReadable.setInput moves).alike rfl h.output

theorem takeFault (h : s.Alike t) (c : CommandFault) : (s.takeFault c).Alike (t.takeFault c) :=
  (h.sameReadable.takeFault c).alike h.input (by simp [h.output])

theorem finish (h : s.Alike t) (i : Instr) (answer : Except CommandFault Word) :
    (s.finish i answer).Alike (t.finish i answer) := by
  cases answer with
  | ok d => exact ((h.sameReadable.effectOf i).respond d).alike (by simp [h.input]) (by simp [h.output])
  | error c => exact h.takeFault c

/-- `RST` makes the same of both: it leaves nothing that may be read (R190, R192). -/
theorem applyReset (h : s.Alike t) : s.applyReset.Alike t.applyReset :=
  ⟨h.cfg, rfl, rfl, rfl, h.input, h.output, fun _ _ => rfl, fun _ _ => rfl⟩

end State.Alike

/-- Outcomes that are next states, alike: no response tells them apart. -/
def AlikeOutcomes (o p : Host.Outcome State Fault Refusal) : Prop :=
  ∃ s t : State, o = .next s ∧ p = .next t ∧ s.Alike t

theorem exec_alike {s t : State} (h : s.Alike t) (i : Instr) : AlikeOutcomes (exec i s) (exec i t) := by
  rw [exec_eq_finish, exec_eq_finish, ← h.sameReadable.answerOf i]
  exact ⟨_, _, rfl, rfl, h.finish i _⟩

/-- A step from states that are alike leads to states that are alike (R131, R192). -/
theorem step_alike {s t : State} (h : s.Alike t) : AlikeOutcomes (step s) (step t) := by
  obtain ⟨hin, hstep⟩ | ⟨rest, hin, hstep⟩ | ⟨f, rest, c, hin, hdecode, hstep⟩ | ⟨f, rest, i, hin, hdecode, hstep⟩ :=
    step_cases s <;> rw [hstep] <;> rw [h.input] at hin
  · exact ⟨_, _, rfl, step_idle hin, h⟩
  · exact ⟨_, _, rfl, step_rst hin, (h.setInput rest).applyReset⟩
  · rw [step_command hin, runFrame_error _ hdecode]
    exact ⟨_, _, rfl, rfl, (h.setInput rest).takeFault c⟩
  · rw [step_command hin, runFrame_ok _ hdecode]
    exact exec_alike (h.setInput rest) i

/-- Runs from states that are alike stay alike, by induction on the number of steps. -/
theorem run_alike (k : Nat) {s t : State} (h : s.Alike t) : AlikeOutcomes (run k s) (run k t) := by
  induction k generalizing s t with
  | zero => exact ⟨s, t, rfl, rfl, h⟩
  | succ k ih =>
    obtain ⟨s', t', hs, ht, hnext⟩ := step_alike h
    rw [run_succ_of_step k hs, run_succ_of_step k ht]
    exact ih hnext

/-- An empty cache hides every entry of `W` (R21, R131). -/
theorem State.alike_of_cur_none {s : State} (words : Cells 64) (h : s.cur = none) : s.Alike { s with words := words } :=
  ⟨rfl, rfl, rfl, rfl, rfl, rfl, fun _ _ => rfl, fun n hn => absurd hn (by simp [h, firstMissing_none])⟩

theorem step_creset {s : State} {rest : List HostMove} (hin : s.input = .command (encode .creset) :: rest) :
    step s = .next ((State.setCur { s with input := rest } none).respond 0#64) := by
  have hdecode : decode (encode .creset) = .ok .creset := by decide
  rw [step_command hin, runFrame_ok _ hdecode]
  rfl

/-- Settles O43: the first step empties the cache, which leaves states that are alike. -/
theorem cresetForgetsTheCache : Obligations.CresetForgetsTheCache := by
  intro s words cur k
  cases k with
  | zero => exact ⟨_, _, rfl, rfl, rfl⟩
  | succ k =>
    rw [run_succ_of_step k (step_creset rfl), run_succ_of_step k (step_creset rfl)]
    obtain ⟨t, u, ht, hu, halike⟩ := run_alike k (((s.setCur none).respond 0#64).alike_of_cur_none words rfl)
    exact ⟨t, u, ht, hu, halike.output⟩

end Sys2Proof.Machine
end

/-! PROOFS, encoding: decode and encode undo each other, rows agree with decoding, what does not decode faults, the
assembler keeps an operand whole, the fields of a response frame. -/

/- The decoder, said once: the opcode names the row, and the row's format says which operands it takes. -/
section
namespace Sys2Proof

/-- The command of `j`'s row whose operand is read from `arg` (R62, R64). -/
def Instr.withOperand (arg : Word) : Instr → Instr
  | .kpush _ => .kpush (arg.extractLsb' 0 8)
  | .kpushw _ => .kpushw arg
  | .mhash _ => .mhash (arg.extractLsb' 0 32)
  | .rhash _ => .rhash arg
  | .getbit _ => .getbit (arg.extractLsb' 0 32)
  | .rdw _ => .rdw (arg.extractLsb' 0 32)
  | .rdcfg _ => .rdcfg (arg.extractLsb' 0 8)
  | j => j

/-- Reading another operand stays in the row. -/
@[simp] theorem Instr.opcode_withOperand (arg : Word) (j : Instr) : (j.withOperand arg).opcode = j.opcode := by
  cases j <;> rfl

/-- A command's operand survives its zero-extension (R63). -/
theorem Instr.withOperand_arg (j : Instr) : j.withOperand j.arg = j := by
  have low {n : Nat} (hn : n ≤ 64) (v : BitVec n) : (v.setWidth 64).extractLsb' 0 n = v := by
    rw [← BitVec.setWidth_eq_extractLsb' hn, BitVec.setWidth_setWidth_of_le _ hn, BitVec.setWidth_eq]
  cases j with
  | nop | kclr | creset | rdcur | rdklen | rderr | kpushw | rhash => rfl
  | kpush b => exact congrArg Instr.kpush (low (by decide) b)
  | mhash seed => exact congrArg Instr.mhash (low (by decide) seed)
  | getbit i => exact congrArg Instr.getbit (low (by decide) i)
  | rdw n => exact congrArg Instr.rdw (low (by decide) n)
  | rdcfg sel => exact congrArg Instr.rdcfg (low (by decide) sel)

theorem Format.fits_iff (fmt : Format) (v : Nat) : fmt.fits v = true ↔ v < 2 ^ fmt.operandBits := by
  simp [Format.fits]

/-- A number fits `n` bits when its bits from `n` up are zero. -/
theorem toNat_lt_two_pow_iff {w : Nat} (x : BitVec w) (n : Nat) :
    x.toNat < 2 ^ n ↔ ∀ j, n ≤ j → x.getLsbD j = false :=
  ⟨fun h j hj => Nat.testBit_lt_two_pow (h.trans_le (Nat.pow_le_pow_right (by decide) hj)),
    fun h => Nat.lt_pow_two_of_testBit _ h⟩

/-- The reserved bits `arg[63:n]` are zero exactly when `arg` is a number of `n` bits (R62, R66). -/
theorem reservedBits_eq_zero_iff (arg : Word) {n len : Nat} (hlen : n + len = 64) :
    arg.extractLsb' n len = 0#len ↔ arg.toNat < 2 ^ n := by
  rw [toNat_lt_two_pow_iff]
  constructor
  · intro h j hj
    by_cases hlt : j < 64
    · have hbit := congrArg (·.getLsbD (j - n)) h
      simpa [show j - n < len by omega, Nat.add_sub_cancel' hj] using hbit
    · exact BitVec.getLsbD_of_ge _ _ (by omega)
  · intro h
    apply BitVec.eq_of_getLsbD_eq
    intro j hj
    simp [h (n + j) (by omega)]

theorem decodeN_eq (arg : Word) (i : Instr) :
    decodeN arg i = if Format.fits .N arg.toNat then .ok i else .error .illegalOperand := by
  have hzero : arg = 0#64 ↔ Format.fits .N arg.toNat = true := by
    rw [Format.fits_iff, ← reservedBits_eq_zero_iff arg (n := Format.operandBits .N) (len := 64) rfl]
    simp [Format.operandBits]
  simp [decodeN, hzero]

theorem decodeB_eq (arg : Word) (mk : BitVec 8 → Instr) :
    decodeB arg mk =
      if Format.fits .B arg.toNat then .ok (mk (arg.extractLsb' 0 8)) else .error .illegalOperand := by
  simp only [decodeB, reservedBits_eq_zero_iff, Format.fits_iff, Format.operandBits]

theorem decodeD_eq (arg : Word) (mk : BitVec 32 → Instr) :
    decodeD arg mk =
      if Format.fits .D arg.toNat then .ok (mk (arg.extractLsb' 0 32)) else .error .illegalOperand := by
  simp only [decodeD, reservedBits_eq_zero_iff, Format.fits_iff, Format.operandBits]

theorem decodeQ_eq (arg : Word) (mk : Word → Instr) :
    decodeQ arg mk = if Format.fits .Q arg.toNat then .ok (mk arg) else .error .illegalOperand := by
  have hfits : Format.fits .Q arg.toNat = true := (Format.fits_iff _ _).mpr arg.isLt
  rw [decodeQ, if_pos hfits]

/-- A frame with the opcode of `j`'s row is a command of that row when its operand fits the row's format, and an operand
fault otherwise (R64, R66). -/
theorem decode_of_opcode {f : Frame} {j : Instr} (hop : frameOp f = j.opcode) :
    decode f = if j.format.fits (frameArg f).toNat then .ok (j.withOperand (frameArg f))
      else .error .illegalOperand := by
  rw [decode, hop]
  cases j with
  | nop | kclr | creset | rdcur | rdklen | rderr => exact decodeN_eq _ _
  | kpush | rdcfg => exact decodeB_eq _ _
  | mhash | getbit | rdw => exact decodeD_eq _ _
  | kpushw | rhash => exact decodeQ_eq _ _

/-- A frame with an opcode above the last row's does not decode (R65). -/
theorem decode_of_reservedOpcode {f : Frame} (hop : 0x0C < (frameOp f).toNat) : decode f = .error .illegalOpcode := by
  obtain ⟨n, hn⟩ := Nat.exists_eq_add_of_lt hop
  rw [decode, show (frameOp f).toNat = n + 13 by omega]
  rfl

/-- The opcodes up to the last row's are all assigned (R64). -/
theorem exists_opcode {op : BitVec 8} (hop : op.toNat ≤ 0x0C) : ∃ j : Instr, op = j.opcode := by
  have assigned (j : Instr) (h : op.toNat = j.opcode.toNat) : ∃ j : Instr, op = j.opcode :=
    ⟨j, BitVec.eq_of_toNat_eq h⟩
  obtain ⟨n, hn⟩ : ∃ n, op.toNat = n := ⟨_, rfl⟩
  rw [hn] at hop
  interval_cases n
  exacts [assigned .nop hn, assigned .kclr hn, assigned (.kpush 0#8) hn, assigned (.kpushw 0#64) hn,
    assigned (.mhash 0#32) hn, assigned (.rhash 0#64) hn, assigned (.getbit 0#32) hn, assigned .creset hn,
    assigned .rdcur hn, assigned (.rdw 0#32) hn, assigned .rdklen hn, assigned (.rdcfg 0#8) hn, assigned .rderr hn]

/-- An operand that fits the row's format is the operand of the command read from it (R62, R63). -/
theorem Instr.arg_withOperand {arg : Word} {j : Instr} (hfits : j.format.fits arg.toNat = true) :
    (j.withOperand arg).arg = arg := by
  rw [Format.fits_iff] at hfits
  have low {n : Nat} (h : arg.toNat < 2 ^ n) : (arg.extractLsb' 0 n).setWidth 64 = arg := by
    apply BitVec.eq_of_toNat_eq
    simp [Nat.mod_eq_of_lt h, Nat.mod_eq_of_lt arg.isLt]
  cases j with
  | nop | kclr | creset | rdcur | rdklen | rderr =>
    exact (BitVec.eq_of_toNat_eq (Nat.lt_one_iff.mp hfits)).symm
  | kpush | rdcfg | mhash | getbit | rdw => exact low hfits
  | kpushw | rhash => rfl

theorem mkFrame_frameOp_frameArg (f : Frame) : mkFrame (frameOp f) (frameArg f) = f := by
  rw [mkFrame, frameOp, frameArg, BitVec.extractLsb'_append_extractLsb'_eq_extractLsb' (by rfl)]
  exact BitVec.extractLsb'_eq_self

/-- A frame that decodes carries the opcode and the operand of its command, and nothing else. -/
theorem decode_ok_inv {f : Frame} {i : Instr} (hdecode : decode f = .ok i) :
    frameOp f = i.opcode ∧ frameArg f = i.arg := by
  obtain hop | hop := Nat.lt_or_ge 0x0C (frameOp f).toNat
  · simp [decode_of_reservedOpcode hop] at hdecode
  · obtain ⟨j, hj⟩ := exists_opcode hop
    rw [decode_of_opcode hj] at hdecode
    split at hdecode
    · rename_i hfits
      obtain rfl := Except.ok.inj hdecode
      exact ⟨hj.trans (Instr.opcode_withOperand _ j).symm, (Instr.arg_withOperand hfits).symm⟩
    · simp at hdecode

/-- Settles O1: a command's frame carries its opcode and its operand, which fits its format. -/
theorem decodeOfEncode : Obligations.DecodeOfEncode := by
  intro i
  have hop : frameOp (encode i) = i.opcode := Laws.frameOp_mkFrame _ _
  have harg : frameArg (encode i) = i.arg := Laws.frameArg_mkFrame _ _
  rw [decode_of_opcode hop, harg, Instr.withOperand_arg, if_pos ((Format.fits_iff _ _).mpr (Machine.arg_fits_format i))]

/-- Settles O2: opcode and operand are all there is in a frame. -/
theorem encodeOfDecode : Obligations.EncodeOfDecode := by
  intro f i hdecode
  obtain ⟨hop, harg⟩ := decode_ok_inv hdecode
  rw [encode, ← hop, ← harg, mkFrame_frameOp_frameArg]

end Sys2Proof
end

/- The opcode map's match and mask columns. -/
section
namespace Sys2Proof

/-- A row's mask keeps the opcode and the bits its format reserves (R62, R64). -/
theorem rowMask_eq (fmt : Format) :
    fmt.rowMask = mkFrame (BitVec.allOnes 8) (BitVec.allOnes 64 <<< fmt.operandBits) := by
  cases fmt <;> decide

theorem and_reservedMask_eq_zero_iff (arg : Word) (n : Nat) :
    arg &&& BitVec.allOnes 64 <<< n = 0#64 ↔ arg.toNat < 2 ^ n := by
  rw [toNat_lt_two_pow_iff]
  constructor
  · intro h j hj
    by_cases hlt : j < 64
    · have hbit := congrArg (·.getLsbD j) h
      simpa [hlt, -BitVec.reduceAllOnes, show ¬ j < n by omega, show j - n < 64 by omega] using hbit
    · exact BitVec.getLsbD_of_ge _ _ (by omega)
  · intro h
    apply BitVec.eq_of_getLsbD_eq
    intro j hj
    by_cases hn : n ≤ j
    · simp [h j hn]
    · simp [show j < n by omega]

theorem mkFrame_inj {op op' : BitVec 8} {arg arg' : Word} :
    mkFrame op arg = mkFrame op' arg' ↔ op = op' ∧ arg = arg' := by
  constructor
  · intro h
    have hop := congrArg frameOp h
    have harg := congrArg frameArg h
    rw [Laws.frameOp_mkFrame, Laws.frameOp_mkFrame] at hop
    rw [Laws.frameArg_mkFrame, Laws.frameArg_mkFrame] at harg
    exact ⟨hop, harg⟩
  · rintro ⟨rfl, rfl⟩
    rfl

/-- A frame lies in the row of `j` exactly when it has the row's opcode and an operand that fits its format (R64). -/
theorem frame_in_row_iff (f : Frame) (j : Instr) :
    f &&& j.format.rowMask = j.rowMatch ↔ frameOp f = j.opcode ∧ j.format.fits (frameArg f).toNat = true := by
  have masked : f &&& j.format.rowMask =
      mkFrame (frameOp f) (frameArg f &&& BitVec.allOnes 64 <<< j.format.operandBits) := by
    conv_lhs => rw [← mkFrame_frameOp_frameArg f, rowMask_eq, mkFrame, mkFrame, BitVec.and_append, BitVec.and_allOnes]
    rfl
  rw [masked, Instr.rowMatch, mkFrame_inj, and_reservedMask_eq_zero_iff, Format.fits_iff]

/-- Settles O3: the row and the decoder ask for the same opcode and the same operands. -/
theorem decodeSelectsMatchingRow : Obligations.DecodeSelectsMatchingRow := by
  intro f j
  rw [frame_in_row_iff]
  constructor
  · rintro ⟨hop, hfits⟩
    exact ⟨_, by rw [decode_of_opcode hop, if_pos hfits], Instr.opcode_withOperand _ j⟩
  · rintro ⟨i, hdecode, hij⟩
    have hop : frameOp f = j.opcode := (decode_ok_inv hdecode).1.trans hij
    rw [decode_of_opcode hop] at hdecode
    split at hdecode
    · exact ⟨hop, ‹_›⟩
    · simp at hdecode

/-- Settles O4: frames of all four formats, a reserved opcode and a reserved operand bit. -/
theorem tableWordsDecode : Obligations.TableWordsDecode := by
  unfold Obligations.TableWordsDecode
  decide

end Sys2Proof
end

/- A frame that does not decode takes its fault; the response's frame shows its code. -/
section
namespace Sys2Proof.Machine

/-- The step of a frame that does not decode: the fault is taken once the move is off the channel (R67, R172). -/
theorem step_undecoded {s : State} {f : Frame} {rest : List HostMove} {c : CommandFault}
    (hin : s.input = .command f :: rest) (hdecode : decode f = .error c) :
    step s = .next (State.takeFault { s with input := rest } c) :=
  (step_command hin).trans (runFrame_error _ hdecode)

/-- Settles O5. -/
theorem reservedOpcodeFaults : Obligations.ReservedOpcodeFaults :=
  ⟨rfl, fun _ _ _ hin hop => step_undecoded hin (decode_of_reservedOpcode hop)⟩

/-- The constants have the selectors 0, 1 and 2 (R142). -/
theorem cfgConstant_unknown (c : Config) {sel : BitVec 8} (hsel : 2 < sel.toNat) : cfgConstant c sel = none := by
  obtain ⟨n, hn⟩ := Nat.exists_eq_add_of_lt hsel
  rw [cfgConstant, show sel.toNat = n + 3 by omega]
  rfl

/-- RDCFG of a selector that names no constant takes the operand fault (R142). -/
theorem execRdcfg_unknown (s : State) {sel : BitVec 8} (hsel : 2 < sel.toNat) :
    execRdcfg sel s = .next (s.takeFault .illegalOperand) := by
  simp only [execRdcfg, cfgConstant_unknown s.cfg hsel]

/-- Settles O6: outside the row its opcode names, a frame's operand does not fit. -/
theorem illegalOperandFaults : Obligations.IllegalOperandFaults := by
  refine ⟨rfl, fun s f rest j hin hop hrow => step_undecoded hin ?_, fun s sel hsel => execRdcfg_unknown s hsel⟩
  have hwide : ¬ j.format.fits (frameArg f).toNat = true := fun hfits => hrow ((frame_in_row_iff f j).mpr ⟨hop, hfits⟩)
  rw [decode_of_opcode hop, if_neg hwide]

/-- Settles O59: a response frame is laid out like a command frame, its code in place of the opcode. -/
theorem responseFrameFields : Obligations.ResponseFrameFields := by
  refine ⟨fun r => ⟨Laws.frameOp_mkFrame r.status.code r.data, Laws.frameArg_mkFrame r.status.code r.data⟩,
    rfl, rfl, rfl, rfl, rfl, rfl, fun _ => rfl, fun st => ?_⟩
  cases st with
  | ok => exact Nat.zero_le 5
  | fault c => exact (faultCode_range c).2

end Sys2Proof.Machine
end

/- The assembler: one equation per shape of a command, the number its digits write, the tokens of its line. -/
section
namespace Sys2Proof.Machine

/-- A mnemonic with an operand: only a format that has one takes it, and only if it fits (R69). -/
theorem asmCommand_operand {m : List Char} {fmt : Format} {mk : Nat → Instr}
    (hrow : asmRows.lookup m = some (fmt, mk)) (v : Nat) :
    asmCommand m (some v) = if fmt ≠ .N ∧ v < 2 ^ fmt.operandBits then some (mk v) else none := by
  simp only [asmCommand, hrow, ← Format.fits_iff]
  cases fmt <;> simp

/-- A mnemonic alone is a command of format N only (R69, log 11). -/
theorem asmCommand_alone {m : List Char} {fmt : Format} {mk : Nat → Instr}
    (hrow : asmRows.lookup m = some (fmt, mk)) :
    asmCommand m none = if fmt = .N then some (mk 0) else none := by
  simp only [asmCommand, hrow]
  cases fmt <;> simp

theorem asmCommand_unknown {m : List Char} (hrow : asmRows.lookup m = none) (operand : Option Nat) :
    asmCommand m operand = none := by
  simp only [asmCommand, hrow]

/-- Each row builds a command that holds the operand it is given, when the operand fits the row's format (R69). -/
theorem asmRows_keep_operand {m : List Char} {fmt : Format} {mk : Nat → Instr}
    (hrow : asmRows.lookup m = some (fmt, mk)) {v : Nat} (hfits : v < 2 ^ fmt.operandBits) :
    (mk v).arg.toNat = v := by
  have absent : ∀ v, v < 2 ^ 0 → (0#64).toNat = v := fun v h => (Nat.lt_one_iff.mp h).symm
  have whole {n : Nat} : ∀ v, v < 2 ^ n → (BitVec.ofNat n v).toNat = v := fun v h => Nat.mod_eq_of_lt h
  have extended {n : Nat} (hn : n ≤ 64) : ∀ v, v < 2 ^ n → ((BitVec.ofNat n v).setWidth 64).toNat = v := fun v h => by
    rw [BitVec.toNat_setWidth_of_le hn, whole v h]
  have kept : ∀ row ∈ asmRows, ∀ v, v < 2 ^ row.2.1.operandBits → (row.2.2 v).arg.toNat = v := by
    simp only [asmRows, List.forall_mem_cons]
    exact ⟨absent, absent, extended (by decide), whole, extended (by decide), whole, extended (by decide), absent, absent,
      extended (by decide), absent, extended (by decide), absent, List.forall_mem_nil _⟩
  obtain ⟨before, after, hrows, -⟩ := List.lookup_eq_some_iff.mp hrow
  exact kept (m, fmt, mk) (by simp [hrows]) v hfits

/-- The character of a digit, as the assembler's text writes it (R69). -/
def asmDigitChar (d : Nat) : Char := (Nat.digitChar d).toUpper

theorem asmDigit_digitChar {base d : Nat} (hbase : base = 10 ∨ base = 16) (hd : d < base) :
    asmDigit base (asmDigitChar d) = some d := by
  obtain rfl | rfl := hbase <;> interval_cases d <;> decide

/-- A digit is no blank, quote or semicolon, and not the `x` of `0x`. -/
theorem asmDigitChar_plain {d : Nat} (hd : d < 16) : asmPlain (asmDigitChar d) ∧ asmDigitChar d ≠ 'x' := by
  unfold asmPlain
  interval_cases d <;> decide

/-- Digits read as the number they write, leading zeros or not: induction from the last digit, which is read last. -/
theorem asmDigits_ofDigits {base : Nat} {ds : List Nat} (hbase : base = 10 ∨ base = 16) (hne : ds ≠ [])
    (hds : ∀ d ∈ ds, d < base) :
    asmDigits base (ds.map asmDigitChar) = some (Nat.ofDigits base ds.reverse) := by
  rw [asmDigits, if_neg (by simpa using hne)]
  clear hne
  induction ds using List.reverseRecOn with
  | nil => rfl
  | append_singleton ds d ih =>
    rw [List.map_append, List.foldl_append, ih fun e he => hds e (by simp [he])]
    simp [asmDigit_digitChar hbase (hds d (by simp)), Nat.ofDigits_cons, Nat.add_comm]

/-- Decimal digits do not begin with `0x`. -/
theorem asmNumber_decimal {ds : List Nat} (hds : ∀ d ∈ ds, d < 10) :
    asmNumber (ds.map asmDigitChar) = asmDigits 10 (ds.map asmDigitChar) := by
  match ds with
  | [] => rfl
  | [d] => rw [asmNumber]; simp
  | d :: e :: ds =>
    have hx : asmDigitChar e ≠ 'x' := (asmDigitChar_plain ((hds e (by simp)).trans (by decide))).2
    rw [asmNumber]
    simp [hx]

/-- The two ways to write a number: its base, and the characters before its digits (R69). -/
def AsmBase (base : Nat) (pre : List Char) : Prop := (base = 10 ∧ pre = []) ∨ (base = 16 ∧ pre = ['0', 'x'])

/-- A written number reads as the value of its digits (R69). -/
theorem asmNumber_written {base : Nat} {pre : List Char} {ds : List Nat} (hbase : AsmBase base pre) (hne : ds ≠ [])
    (hds : ∀ d ∈ ds, d < base) :
    asmNumber (pre ++ ds.map asmDigitChar) = some (Nat.ofDigits base ds.reverse) := by
  obtain ⟨rfl, rfl⟩ | ⟨rfl, rfl⟩ := hbase
  · rw [List.nil_append, asmNumber_decimal hds]
    exact asmDigits_ofDigits (.inl rfl) hne hds
  · exact asmDigits_ofDigits (.inr rfl) hne hds

/-- A written number is one word of the line. -/
theorem asmNumber_plain {base : Nat} {pre : List Char} {ds : List Nat} (hbase : AsmBase base pre)
    (hds : ∀ d ∈ ds, d < base) : ∀ c ∈ pre ++ ds.map asmDigitChar, asmPlain c := by
  have hplain (h16 : base ≤ 16) : ∀ c ∈ ds.map asmDigitChar, asmPlain c := by
    simp only [List.forall_mem_map]
    exact fun d hd => (asmDigitChar_plain ((hds d hd).trans_le h16)).1
  obtain ⟨rfl, rfl⟩ | ⟨rfl, rfl⟩ := hbase
  · exact hplain (by decide)
  · have hmark : ∀ c ∈ ['0', 'x'], asmPlain c := by simp [asmPlain]
    exact List.forall_mem_append.mpr ⟨hmark, hplain le_rfl⟩

/-- What may follow a command on its line: nothing, or a comment after a blank (R69). -/
def AsmTail (tail : List Char) : Prop := tail = [] ∨ ∃ c, tail = ' ' :: ';' :: c

/-- The rest of a line ends the word before it and adds no token. -/
theorem asmTokens_tail {tail : List Char} (htail : AsmTail tail) (word : List Char) :
    asmTokens tail word none = some (asmFlush word []) := by
  obtain rfl | ⟨c, rfl⟩ := htail
  · rfl
  · rw [asmTokens_blank, asmTokens_comment]
    rfl

/-- A command's mnemonic is no pseudo-command, so a line of that word alone is the command without operand. -/
theorem asmLine_of_word {i : Instr} {line : List Char}
    (htokens : asmTokens line [] none = some [.word (asmMnemonic i)]) :
    asmLine line = (asmCommand (asmMnemonic i) none).map ([·]) := by
  obtain ⟨-, -, hkey, hnewkey, hkeyx⟩ := asmMnemonic_word i
  simp only [asmLine, htokens, if_neg hkey, if_neg hnewkey, if_neg hkeyx]

/-- A line of a command's mnemonic and one more word is the command with that word as its number. -/
theorem asmLine_of_two_words {i : Instr} {line o : List Char}
    (htokens : asmTokens line [] none = some [.word (asmMnemonic i), .word o]) :
    asmLine line = ((asmNumber o).bind fun v => asmCommand (asmMnemonic i) (some v)).map ([·]) := by
  obtain ⟨-, -, hkey, hnewkey, hkeyx⟩ := asmMnemonic_word i
  simp only [asmLine, htokens, if_neg hkey, if_neg hnewkey, if_neg hkeyx]

/-- The line of a mnemonic alone. -/
theorem asmLine_alone (i : Instr) {tail : List Char} (htail : AsmTail tail) :
    asmLine (asmMnemonic i ++ tail) = (asmCommand (asmMnemonic i) none).map ([·]) := by
  obtain ⟨hplain, hne, -⟩ := asmMnemonic_word i
  have htokens : asmTokens (asmMnemonic i ++ tail) [] none = some [.word (asmMnemonic i)] := by
    rw [asmTokens_plain _ _ _ hplain, List.nil_append, asmTokens_tail htail, asmFlush, if_neg hne]
  exact asmLine_of_word htokens

/-- The line of a mnemonic and a written number. -/
theorem asmLine_operand (i : Instr) {base : Nat} {pre tail : List Char} {ds : List Nat} (hbase : AsmBase base pre)
    (hne : ds ≠ []) (hds : ∀ d ∈ ds, d < base) (htail : AsmTail tail) :
    asmLine (asmMnemonic i ++ ' ' :: (pre ++ ds.map asmDigitChar ++ tail)) =
      (asmCommand (asmMnemonic i) (some (Nat.ofDigits base ds.reverse))).map ([·]) := by
  obtain ⟨hplain, hword, -⟩ := asmMnemonic_word i
  have hnumber : pre ++ ds.map asmDigitChar ≠ [] := by simp [hne]
  have htokens : asmTokens (asmMnemonic i ++ ' ' :: (pre ++ ds.map asmDigitChar ++ tail)) [] none =
      some [.word (asmMnemonic i), .word (pre ++ ds.map asmDigitChar)] := by
    rw [asmTokens_plain _ _ _ hplain, asmTokens_blank, asmTokens_plain _ _ _ (asmNumber_plain hbase hds),
      asmTokens_tail htail]
    simp [asmFlush, hword, hnumber]
  rw [asmLine_of_two_words htokens, asmNumber_written hbase hne hds, Option.bind_some]

/-- Settles O7: a line is its mnemonic's row and the number written, and no row builds a command from a number that does
not fit. -/
theorem assemblerNeverTruncates : Obligations.AssemblerNeverTruncates := by
  refine ⟨?kept, ?tooWide, ?lines⟩
  case kept =>
    intro m v i hcommand
    match hrow : asmRows.lookup m with
    | none => simp [asmCommand_unknown hrow] at hcommand
    | some (fmt, mk) =>
      rw [asmCommand_operand hrow] at hcommand
      split at hcommand
      · rename_i hfits
        obtain rfl := Option.some.inj hcommand
        exact asmRows_keep_operand hrow hfits.2
      · simp at hcommand
  case tooWide =>
    intro m fmt mk v hrow hwide
    rw [asmCommand_operand hrow, if_neg fun h => hwide.not_gt h.2]
  case lines =>
    intro i base pre tail ds hbase hne hds htail
    obtain ⟨mk, hrow, hmk⟩ := asmRows_lookup_mnemonic i
    have hwidth := arg_fits_format i
    have hline := asmLine_operand i hbase hne hds htail
    rw [asmCommand_operand hrow] at hline
    have halone := asmLine_alone i htail
    rw [asmCommand_alone hrow] at halone
    refine ⟨fun hfmt hvalue => hline.trans ?_, fun hwide => hline.trans ?_, fun hfmt => hline.trans ?_,
      fun hfmt => ?_, fun hfmt => ?_⟩
    · rw [hvalue, if_pos ⟨hfmt, hwidth⟩, hmk]
      rfl
    · rw [if_neg fun h => hwide.not_gt h.2]
      rfl
    · rw [if_neg fun h => h.1 hfmt]
      rfl
    · have hzero : i.arg.toNat = 0 := by simpa [hfmt, Format.operandBits] using hwidth
      rw [halone, if_pos hfmt, ← hzero, hmk]
      rfl
    · rw [halone, if_neg hfmt]
      rfl

end Sys2Proof.Machine
end

/-! PROOFS, key buffer: what KCLR, KPUSH, KPUSHW and RDKLEN do, eight KPUSH for one KPUSHW, the key sequence. -/

/- Frames of a row: an operand with a reserved bit set, and a short operand written out. -/
section
namespace Sys2Proof

theorem ushiftRight_eq_zero_iff (arg : Word) (n : Nat) : arg >>> n = 0#64 ↔ arg.toNat < 2 ^ n := by
  rw [← BitVec.toNat_inj, BitVec.toNat_ushiftRight, Nat.shiftRight_eq_div_pow, BitVec.toNat_zero,
    Nat.div_eq_zero_iff_lt (Nat.two_pow_pos n)]

/-- A reserved operand bit that is 1 is the operand fault, in every row (R66). -/
theorem decode_reservedBit {f : Frame} {j : Instr} (hop : frameOp f = j.opcode)
    (hreserved : frameArg f >>> j.format.operandBits ≠ 0#64) : decode f = .error .illegalOperand := by
  have hwide : ¬ j.format.fits (frameArg f).toNat = true := by
    rwa [Format.fits_iff, ← ushiftRight_eq_zero_iff]
  rw [decode_of_opcode hop, if_neg hwide]

/-- In a row of format N every operand bit is reserved (R62). -/
theorem decode_operand_of_N {f : Frame} {j : Instr} (hop : frameOp f = j.opcode) (hN : j.format = .N)
    (harg : frameArg f ≠ 0#64) : decode f = .error .illegalOperand := by
  apply decode_reservedBit hop
  rw [hN]
  simpa [Format.operandBits] using harg

/-- A frame whose operand has `n` bits: the opcode, the reserved zeros, the operand (R60, R62). -/
theorem mkFrame_setWidth (op : BitVec 8) {k n : Nat} (v : BitVec n) (hwidth : k + n = 64) :
    mkFrame op (v.setWidth 64) = (op ++ 0#k ++ v).cast (by omega) := by
  apply BitVec.eq_of_getLsbD_eq
  intro j hj
  rw [Laws.getLsbD_mkFrame]
  simp only [BitVec.getLsbD_cast, BitVec.getLsbD_append, BitVec.getLsbD_setWidth, BitVec.getLsbD_zero]
  by_cases hoperand : j < n
  · simp [hoperand, show j < 64 by omega]
  · by_cases hreserved : j < 64
    · simp [hoperand, hreserved, show j - n < k by omega, BitVec.getLsbD_of_ge v j (by omega)]
    · simp [hoperand, hreserved, show ¬ j - n < k by omega, show j - n - k = j - 64 by omega]

end Sys2Proof
end

/- A command by its answer: the instruction, the host's call, the calls one after another. -/
section
namespace Sys2Proof.Machine

theorem exec_of_answer {i : Instr} {s : State} {d : Word} (h : s.answerOf i = .ok d) :
    exec i s = .next ((s.effectOf i).respond d) := by
  rw [exec_eq_finish, h, State.finish]

theorem exec_of_fault {i : Instr} {s : State} {c : CommandFault} (h : s.answerOf i = .error c) :
    exec i s = .next (s.takeFault c) := by
  rw [exec_eq_finish, h, State.finish]

/-- The step that takes a command's own frame runs the command (R67). -/
theorem step_encode {s : State} {i : Instr} {rest : List HostMove} (hin : s.input = .command (encode i) :: rest) :
    step s = exec i { s with input := rest } := by
  rw [step_command hin, runFrame_ok _ (decodeOfEncode i)]

theorem step_offer (s : State) (i : Instr) : step (s.offer (encode i)) = exec i s :=
  step_encode (s.offer_input _)

/-- The host gets the data of an OK response (R50, R61). -/
theorem hostCall_of_answer {i : Instr} {s : State} {d : Word} (h : s.answerOf i = .ok d) :
    hostCall i s = (.answer d, (s.effectOf i).respond d) := by
  simp [hostCall, step_offer, exec_of_answer h]

/-- The host gets the cause of a fault (R50, R171). -/
theorem hostCall_of_fault {i : Instr} {s : State} {c : CommandFault} (h : s.answerOf i = .error c) :
    hostCall i s = (.failed (.blockFault c), s.takeFault c) := by
  simp [hostCall, step_offer, exec_of_fault h]

theorem hostCalls_cons_of_answer {i : Instr} {s : State} {d : Word} (is : List Instr) (h : s.answerOf i = .ok d) :
    hostCalls (i :: is) s = hostCalls is ((s.effectOf i).respond d) := by
  rw [hostCalls, hostCall_of_answer h]

/-- A fault ends the sequence (R162). -/
theorem hostCalls_cons_of_fault {i : Instr} {s : State} {c : CommandFault} (is : List Instr)
    (h : s.answerOf i = .error c) : hostCalls (i :: is) s = (some (.blockFault c), s.takeFault c) := by
  rw [hostCalls, hostCall_of_fault h]

end Sys2Proof.Machine
end

/- A push of `n` bytes, one for KPUSH and eight for KPUSHW: when it is answered OK, and the key after it. -/
section
namespace Sys2Proof.Machine

/-- The block after a push of the low `n` bytes of `v` that has room (R82, R83). -/
def State.pushed (s : State) (n : Nat) (v : Word) : State := (s.appendKey n v).respond 0#64

variable {s : State}

theorem State.keyRoom_iff (s : State) (n : Nat) : s.keyRoom n = true ↔ s.klen.toNat + n ≤ s.cfg.keyCap := by
  simp [State.keyRoom]

theorem State.answerOf_kpush (b : Byte) (room : s.klen.toNat + 1 ≤ s.cfg.keyCap) :
    s.answerOf (.kpush b) = .ok 0#64 :=
  if_pos ((s.keyRoom_iff 1).mpr room)

theorem State.answerOf_kpush_full (b : Byte) (full : s.cfg.keyCap < s.klen.toNat + 1) :
    s.answerOf (.kpush b) = .error .keyOverflow :=
  if_neg fun room => full.not_ge ((s.keyRoom_iff 1).mp room)

theorem State.answerOf_kpushw (w : Word) (room : s.klen.toNat + 8 ≤ s.cfg.keyCap) :
    s.answerOf (.kpushw w) = .ok 0#64 :=
  if_pos ((s.keyRoom_iff 8).mpr room)

theorem State.answerOf_kpushw_full (w : Word) (full : s.cfg.keyCap < s.klen.toNat + 8) :
    s.answerOf (.kpushw w) = .error .keyOverflow :=
  if_neg fun room => full.not_ge ((s.keyRoom_iff 8).mp room)

theorem exec_kpush (b : Byte) (room : s.klen.toNat + 1 ≤ s.cfg.keyCap) :
    exec (.kpush b) s = .next (s.pushed 1 (zext64 b)) :=
  exec_of_answer (State.answerOf_kpush b room)

theorem exec_kpushw (w : Word) (room : s.klen.toNat + 8 ≤ s.cfg.keyCap) :
    exec (.kpushw w) s = .next (s.pushed 8 w) :=
  exec_of_answer (State.answerOf_kpushw w room)

/-- The byte that KPUSH stores is its operand (R63, R82). -/
@[simp] theorem wordByte_zext64_zero (b : Byte) : wordByte (zext64 b) 0 = b := by
  simp [wordByte, zext64, ← BitVec.setWidth_eq_extractLsb']

@[simp] theorem State.pushed_cfg (s : State) (n : Nat) (v : Word) : (s.pushed n v).cfg = s.cfg := rfl

theorem State.klen_pushed {n : Nat} (v : Word) (hwf : s.cfg.wf = true) (room : s.klen.toNat + n ≤ s.cfg.keyCap) :
    (s.pushed n v).klen.toNat = s.klen.toNat + n :=
  State.klen_appendKey_toNat v hwf room

theorem State.keyByte_pushed_written (s : State) {n : Nat} (v : Word) {j : Nat} (hj : j < n) :
    (s.pushed n v).keyByte (s.klen.toNat + j) = wordByte v j := by
  rw [State.pushed, State.respond_keyByte, State.keyByte_appendKey, if_pos (by omega), Nat.add_sub_cancel_left]

theorem State.keyByte_pushed_kept (s : State) {n : Nat} (v : Word) {a : Nat}
    (ha : a < s.klen.toNat ∨ s.klen.toNat + n ≤ a) : (s.pushed n v).keyByte a = s.keyByte a := by
  rw [State.pushed, State.respond_keyByte, State.keyByte_appendKey, if_neg (by omega)]

/-- What no push touches, and its response (R32, R82, R83). -/
theorem State.pushed_frame (s : State) (n : Nat) (v : Word) :
    (s.pushed n v).output = s.output ++ [{ status := .ok, data := 0#64 }] ∧ (s.pushed n v).words = s.words ∧
      (s.pushed n v).cur = s.cur ∧ (s.pushed n v).err = s.err ∧ (s.pushed n v).cfg = s.cfg ∧
      (s.pushed n v).input = s.input :=
  ⟨rfl, rfl, rfl, rfl, rfl, rfl⟩

/-- The key presented after a push is the key before it and the bytes pushed (R80). -/
theorem State.keyBytes_pushed {n : Nat} (v : Word) (hwf : s.cfg.wf = true)
    (room : s.klen.toNat + n ≤ s.cfg.keyCap) :
    (s.pushed n v).keyBytes = s.keyBytes ++ (List.range n).map (wordByte v) := by
  rw [State.keyBytes, State.klen_pushed v hwf room, List.range_add, List.map_append, List.map_map]
  congr 1
  · exact List.map_congr_left fun a ha => s.keyByte_pushed_kept v (.inl (List.mem_range.mp ha))
  · exact List.map_congr_left fun j hj => s.keyByte_pushed_written v (List.mem_range.mp hj)

/-- A store of `n + 1` bytes is the store of the first `n` and then of the last (R42). -/
theorem State.appendKey_succ {n : Nat} (v : Word) (hwf : s.cfg.wf = true)
    (room : s.klen.toNat + n ≤ s.cfg.keyCap) :
    s.appendKey (n + 1) v = (s.appendKey n v).appendKey 1 (zext64 (wordByte v n)) := by
  have hkey : memWrite s.key s.klen.toNat (n + 1) v =
      memWrite (s.appendKey n v).key (s.appendKey n v).klen.toNat 1 (zext64 (wordByte v n)) := by
    rw [State.klen_appendKey_toNat v hwf room, memWrite_succ, memWrite_succ, memWrite_zero, wordByte_zext64_zero]
    rfl
  have hklen : s.klen + BitVec.ofNat 32 (n + 1) = (s.appendKey n v).klen + 1#32 := by
    rw [State.appendKey_klen, BitVec.ofNat_add, BitVec.add_assoc]
  rw [State.appendKey, hkey, hklen]
  rfl

end Sys2Proof.Machine
end

/- Bytes pushed one after another: as a function of the state, as moves of the host, as the host's calls. -/
section
namespace Sys2Proof.Machine

/-- The block after KPUSH of each byte of `K` in order, each with room (R82). -/
def State.pushKey (s : State) : List Byte → State
  | [] => s
  | b :: K => (s.pushed 1 (zext64 b)).pushKey K

variable {s : State} {b : Byte} {K : List Byte}

/-- Pushes write `KEY` and `KLEN` and nothing else but their responses (R32). -/
theorem State.pushKey_frame (s : State) (K : List Byte) :
    s.pushKey K = { s with key := (s.pushKey K).key, klen := (s.pushKey K).klen, output := (s.pushKey K).output } := by
  induction K generalizing s with
  | nil => rfl
  | cons b K ih => rw [State.pushKey, ih]; rfl

theorem State.pushKey_concat (s : State) (K : List Byte) (b : Byte) :
    s.pushKey (K ++ [b]) = (s.pushKey K).pushed 1 (zext64 b) := by
  induction K generalizing s with
  | nil => rfl
  | cons c K ih => exact ih (s.pushed 1 (zext64 c))

theorem State.length_keyBytes (s : State) : s.keyBytes.length = s.klen.toNat := by
  simp [State.keyBytes]

/-- Room for a byte and for the rest `K`: the byte has room, and after it the rest has (R82). -/
theorem State.room_cons (hwf : s.cfg.wf = true) (room : s.klen.toNat + (b :: K).length ≤ s.cfg.keyCap) :
    s.klen.toNat + 1 ≤ s.cfg.keyCap ∧ (s.pushed 1 (zext64 b)).cfg.wf = true ∧
      (s.pushed 1 (zext64 b)).klen.toNat + K.length ≤ (s.pushed 1 (zext64 b)).cfg.keyCap := by
  rw [List.length_cons] at room
  have hfirst : s.klen.toNat + 1 ≤ s.cfg.keyCap := by omega
  rw [State.klen_pushed _ hwf hfirst, State.pushed_cfg]
  exact ⟨hfirst, hwf, by omega⟩

/-- The key presented after pushes that all have room (R80). -/
theorem State.keyBytes_pushKey (hwf : s.cfg.wf = true) (room : s.klen.toNat + K.length ≤ s.cfg.keyCap) :
    (s.pushKey K).keyBytes = s.keyBytes ++ K := by
  induction K generalizing s with
  | nil => simp [State.pushKey]
  | cons b K ih =>
    obtain ⟨hfirst, hwf', hrest⟩ := State.room_cons hwf room
    have hbyte : (s.pushed 1 (zext64 b)).keyBytes = s.keyBytes ++ [b] := by
      simpa using State.keyBytes_pushed (zext64 b) hwf hfirst
    rw [State.pushKey, ih hwf' hrest, hbyte, List.append_assoc, List.singleton_append]

/-- The first `n` bytes of a word, pushed one by one, leave what one store of `n` bytes leaves (R42), and one response
each. -/
theorem State.pushKey_wordBytes (w : Word) (n : Nat) (hwf : s.cfg.wf = true)
    (room : s.klen.toNat + n ≤ s.cfg.keyCap) :
    s.pushKey ((List.range n).map (wordByte w)) =
      { s.appendKey n w with output := s.output ++ List.replicate n { status := .ok, data := 0#64 } } := by
  induction n with
  | zero => simp [State.pushKey, State.appendKey, memWrite_zero]
  | succ n ih =>
    rw [List.range_succ, List.map_append, List.map_singleton, State.pushKey_concat, ih (by omega),
      State.appendKey_succ w hwf (by omega), List.replicate_succ', ← List.append_assoc]
    rfl

/-- The frames of the pushes of `K`, as moves of the host. -/
def kpushMoves (K : List Byte) : List HostMove := K.map fun b => .command (encode (.kpush b))

/-- Pushes that all have room, as moves of the host: one step each. -/
theorem run_kpushMoves (hwf : s.cfg.wf = true) (room : s.klen.toNat + K.length ≤ s.cfg.keyCap) :
    run K.length { s with input := kpushMoves K } = .next (State.pushKey { s with input := [] } K) := by
  induction K generalizing s with
  | nil => rfl
  | cons b K ih =>
    obtain ⟨hfirst, hwf', hrest⟩ := State.room_cons hwf room
    have hstep : step { s with input := kpushMoves (b :: K) } =
        .next (State.pushed { s with input := kpushMoves K } 1 (zext64 b)) :=
      (step_encode rfl).trans (exec_kpush b hfirst)
    exact (run_succ_of_step K.length hstep).trans (ih hwf' hrest)

theorem hostCalls_kpush_cons (room : s.klen.toNat + 1 ≤ s.cfg.keyCap) :
    hostCalls ((b :: K).map .kpush) s = hostCalls (K.map .kpush) (s.pushed 1 (zext64 b)) :=
  hostCalls_cons_of_answer _ (State.answerOf_kpush b room)

/-- The host's calls of pushes that all have room. -/
theorem hostCalls_kpush (hwf : s.cfg.wf = true) (room : s.klen.toNat + K.length ≤ s.cfg.keyCap) :
    hostCalls (K.map .kpush) s = (none, s.pushKey K) := by
  induction K generalizing s with
  | nil => rfl
  | cons b K ih =>
    obtain ⟨hfirst, hwf', hrest⟩ := State.room_cons hwf room
    rw [hostCalls_kpush_cons hfirst, ih hwf' hrest, State.pushKey]

/-- The host's calls of more pushes than there is room for: the first one beyond the capacity ends them (R82). -/
theorem hostCalls_kpush_overflow (hwf : s.cfg.wf = true) (hklen : s.klen.toNat ≤ s.cfg.keyCap)
    (full : s.cfg.keyCap < s.klen.toNat + K.length) :
    ∃ t, hostCalls (K.map .kpush) s = (some (.blockFault .keyOverflow), t) := by
  induction K generalizing s with
  | nil => exact absurd hklen full.not_ge
  | cons b K ih =>
    rcases Nat.lt_or_ge s.cfg.keyCap (s.klen.toNat + 1) with hfull | hroom
    · exact ⟨_, hostCalls_cons_of_fault _ (State.answerOf_kpush_full b hfull)⟩
    · have hnext := State.klen_pushed (zext64 b) hwf hroom
      rw [List.length_cons] at full
      rw [hostCalls_kpush_cons hroom]
      exact ih hwf (by rwa [hnext]) (by rw [hnext, State.pushed_cfg]; omega)

end Sys2Proof.Machine
end

/- The key buffer's commands. -/
section
namespace Sys2Proof.Machine

/-- Settles O22: with room, the byte is all that the push stores. -/
theorem kpushAppendsByte : Obligations.KpushAppendsByte := by
  refine ⟨rfl, fun b => mkFrame_setWidth 0x02#8 b (k := 56) rfl, fun s b hwf room => ?_,
    fun _ b full => exec_of_fault (State.answerOf_kpush_full b full),
    fun _ hop hreserved => decode_reservedBit (j := .kpush 0#8) hop hreserved⟩
  have hbyte : (s.pushed 1 (zext64 b)).keyByte s.klen.toNat = b :=
    (s.keyByte_pushed_written _ Nat.one_pos).trans (wordByte_zext64_zero b)
  exact ⟨_, exec_kpush b room, State.klen_pushed _ hwf room, hbyte,
    fun a ha => s.keyByte_pushed_kept _ (by omega), s.pushed_frame _ _⟩

/-- Settles O23: with room, the eight bytes are all that the push stores. -/
theorem kpushwAppendsWord : Obligations.KpushwAppendsWord :=
  ⟨fun _ => rfl,
    fun s w hwf room => ⟨_, exec_kpushw w room, State.klen_pushed w hwf room,
      fun _ hj => s.keyByte_pushed_written w hj, fun _ ha => s.keyByte_pushed_kept w ha, s.pushed_frame 8 w⟩,
    fun _ w full => exec_of_fault (State.answerOf_kpushw_full w full)⟩

/-- Settles O24: the run of the eight pushes stores what one push of eight bytes stores. -/
theorem kpushwIsEightKpush : Obligations.KpushwIsEightKpush := by
  intro s w hwf room
  have hmoves : ((List.range 8).map fun j => HostMove.command (encode (.kpush (wordByte w j)))) =
      kpushMoves ((List.range 8).map (wordByte w)) := (List.map_map ..).symm
  have hrun := run_kpushMoves (s := s) (K := (List.range 8).map (wordByte w)) hwf room
  rw [State.pushKey_wordBytes (s := { s with input := [] }) w 8 hwf room] at hrun
  rw [hmoves]
  exact ⟨_, _, exec_kpushw w room, hrun, rfl, rfl, rfl, rfl, rfl⟩

/-- Settles O26: after KCLR the key presented is empty, and each push with room extends it. -/
theorem keySequencePresentsKey : Obligations.KeySequencePresentsKey := by
  intro s K hwf
  have hclr : hostCalls (keySequence K) s = hostCalls (K.map .kpush) ((s.setKlen 0#32).respond 0#64) :=
    hostCalls_cons_of_answer _ rfl
  rw [hclr]
  have hlength : ((s.setKlen 0#32).respond 0#64).klen.toNat + K.length = K.length := Nat.zero_add _
  constructor
  · intro hfits
    have hroom := hlength.trans_le hfits
    have hkey : (((s.setKlen 0#32).respond 0#64).pushKey K).keyBytes = K := State.keyBytes_pushKey hwf hroom
    refine ⟨_, hostCalls_kpush hwf hroom, by rw [← State.length_keyBytes, hkey], hkey, ?_⟩
    rw [State.pushKey_frame]
    exact ⟨rfl, rfl, rfl, rfl⟩
  · intro hlong
    exact hostCalls_kpush_overflow hwf (Nat.zero_le _) (hlong.trans_eq hlength.symm)

/-- Settles O21. -/
theorem kclrClearsLengthOnly : Obligations.KclrClearsLengthOnly :=
  ⟨rfl, fun _ => exec_of_answer rfl, fun _ hop harg => decode_operand_of_N (j := .kclr) hop rfl harg⟩

/-- Settles O25: the answer is `KLEN`, which is 0 after reset. -/
theorem rdklenReadsLength : Obligations.RdklenReadsLength :=
  ⟨rfl, fun _ => exec_of_answer rfl, fun _ => exec_of_answer rfl,
    fun _ hop harg => decode_operand_of_N (j := .rdklen) hop rfl harg⟩

end Sys2Proof.Machine
end

/-! PROOFS, mixing hash: it reads the key presented and nothing else, its steps are bijections, and so is the hash in
any one full block. -/

/- The bijections the hash is made of. -/
section
namespace Sys2Proof.Machine

/-- The inverse of the multiplier modulo 2^64; it has one because `M` is odd (R90, R101). -/
def hashMInv : Word := 0x5F7A0EA7E59B19BD#64

theorem hashM_mul_hashMInv : hashM * hashMInv = 1#64 := by decide

/-- Multiplying by `M` is undone by multiplying by its inverse (R91, R101). -/
theorem mul64_hashM_bijective : Function.Bijective fun x => mul64 x hashM := by
  refine Function.bijective_iff_has_inverse.mpr ⟨fun x => mul64 x hashMInv, fun x => ?_, fun x => ?_⟩
  · simp only [mul64, BitVec.mul_assoc, hashM_mul_hashMInv, BitVec.mul_one]
  · simp only [mul64, BitVec.mul_assoc, BitVec.mul_comm hashMInv, hashM_mul_hashMInv, BitVec.mul_one]

/-- The shift-xor undoes itself: two shifts by 47 leave nothing of 64 bits (R94, R101). -/
theorem xorShift_involutive : Function.Involutive xorShift := by
  intro x
  have hgone : x >>> hashR >>> hashR = 0#64 := by
    rw [← BitVec.shiftRight_add]
    exact BitVec.ushiftRight_eq_zero (by decide)
  rw [xorShift, xorShift, BitVec.ushiftRight_xor_distrib, hgone, BitVec.xor_zero, BitVec.xor_assoc, BitVec.xor_self,
    BitVec.xor_zero]

/-- Xor with a fixed word undoes itself, from the left and from the right (R101). -/
theorem xor_left_involutive (c : Word) : Function.Involutive fun x => c ^^^ x := fun x => by
  simp only [← BitVec.xor_assoc, BitVec.xor_self, BitVec.zero_xor]

theorem xor_right_involutive (c : Word) : Function.Involutive fun x => x ^^^ c := fun x => by
  simp only [BitVec.xor_assoc, BitVec.xor_self, BitVec.xor_zero]

/-- Finalisation: shift-xor, multiply, shift-xor (R96). -/
theorem fin64_bijective : Function.Bijective fin64 :=
  xorShift_involutive.bijective.comp (mul64_hashM_bijective.comp xorShift_involutive.bijective)

/-- The block word's mixing: multiply, shift-xor, multiply (R94). -/
theorem mixWord_bijective : Function.Bijective mixWord :=
  mul64_hashM_bijective.comp (xorShift_involutive.bijective.comp mul64_hashM_bijective)

/-- The block round as a function of the block word (R94). -/
theorem mixRound_bijective_word (h : Word) : Function.Bijective fun k => mixRound h k :=
  mul64_hashM_bijective.comp ((xor_left_involutive h).bijective.comp mixWord_bijective)

/-- The block round as a function of what came before (R94). -/
theorem mixRound_bijective_state (k : Word) : Function.Bijective fun h => mixRound h k :=
  mul64_hashM_bijective.comp (xor_right_involutive (mixWord k)).bijective

/-- Settles O31. -/
theorem hashStepsAreBijections : Obligations.HashStepsAreBijections :=
  ⟨mul64_hashM_bijective, xorShift_involutive.bijective, fin64_bijective, mixWord_bijective, mixRound_bijective_word,
    mixRound_bijective_state⟩

end Sys2Proof.Machine
end

/- One full block of a buffer as a variable. -/
section
namespace Sys2Proof.Machine

/-- The buffer `B` with the little-endian bytes of `w` as its full block `n` (R93, R101). -/
def withBlock (B : Nat → Byte) (n : Nat) (w : Word) : Nat → Byte :=
  fun a => if 8 * n ≤ a ∧ a < 8 * n + 8 then wordByte w (a - 8 * n) else B a

theorem withBlock_add (B : Nat → Byte) (n : Nat) (w : Word) {j : Nat} (hj : j < 8) :
    withBlock B n w (8 * n + j) = wordByte w j := by
  rw [withBlock, if_pos (by omega), Nat.add_sub_cancel_left]

theorem withBlock_other (B : Nat → Byte) (n : Nat) (w : Word) {a : Nat} (ha : a < 8 * n ∨ 8 * n + 8 ≤ a) :
    withBlock B n w a = B a := by
  rw [withBlock, if_neg (by omega)]

/-- Reading the first `n` bytes of a word gives its low `8n` bits (R40). -/
theorem getLsbD_memRead_wordByte {B : Nat → Byte} {o n : Nat} {w : Word} (h : ∀ j, j < n → B (o + j) = wordByte w j)
    (k : Nat) : (memRead B o n).getLsbD k = (decide (k < 8 * n) && w.getLsbD k) := by
  induction n with
  | zero => simp
  | succ n ih =>
    rw [memRead_succ_xor, BitVec.getLsbD_xor, ih fun j hj => h j (by omega), h n n.lt_add_one, wordByte, zext64,
      BitVec.getLsbD_shiftLeft, BitVec.getLsbD_setWidth, BitVec.getLsbD_extractLsb']
    by_cases hword : k < 64
    · by_cases hlow : k < 8 * n
      · simp [hlow, show k < 8 * (n + 1) by omega]
      · simp [hlow, hword, show k - 8 * n < 64 by omega, show 8 * n + (k - 8 * n) = k by omega,
          show k - 8 * n < 8 ↔ k < 8 * (n + 1) by omega]
    · simp [hword, BitVec.getLsbD_of_ge w k (by omega)]

/-- Eight little-endian bytes read back as their word (R40, R93). -/
theorem memRead_wordByte {B : Nat → Byte} {o : Nat} {w : Word} (h : ∀ j, j < 8 → B (o + j) = wordByte w j) :
    memRead B o 8 = w := by
  apply BitVec.eq_of_getLsbD_eq
  intro k hk
  rw [getLsbD_memRead_wordByte h, decide_eq_true (show k < 8 * 8 from hk), Bool.true_and]

/-- The block loop as a function of one of its words: that word's round, then rounds on fixed words (R93). -/
theorem mixBlocks_withBlock_bijective (B : Nat → Byte) {n m : Nat} (h : Word) (hnm : n < m) :
    Function.Bijective fun w => mixBlocks (withBlock B n w) m h := by
  induction m with
  | zero => omega
  | succ m ih =>
    simp only [mixBlocks_succ]
    rcases Nat.lt_succ_iff_lt_or_eq.mp hnm with hearlier | rfl
    · have hfixed (w : Word) : memRead (withBlock B n w) (8 * m) 8 = memRead B (8 * m) 8 :=
        memRead_congr _ _ fun b hb _ => withBlock_other B n w (by omega)
      simp only [hfixed]
      exact (mixRound_bijective_state _).comp (ih hearlier)
    · have hbefore (w : Word) : mixBlocks (withBlock B n w) n h = mixBlocks B n h :=
        mixBlocks_congr _ _ fun b hb => withBlock_other B n w (by omega)
      have hblock (w : Word) : memRead (withBlock B n w) (8 * n) 8 = w :=
        memRead_wordByte fun j hj => withBlock_add B n w hj
      simp only [hbefore, hblock]
      exact mixRound_bijective_word _

/-- The tail as a function of what the block loop left (R95). -/
theorem mixTail_bijective (B : Nat → Byte) (o t : Nat) : Function.Bijective fun h => mixTail B o t h := by
  by_cases ht : t = 0
  · simp only [mixTail, if_pos ht]
    exact Function.bijective_id
  · simp only [mixTail, if_neg ht, foldTail_eq_xor_memRead]
    exact mul64_hashM_bijective.comp (xor_right_involutive _).bijective

/-- A full block has no byte in the tail (R95). -/
theorem mixTail_withBlock (B : Nat → Byte) {n o : Nat} (t : Nat) (w h : Word) (hn : 8 * n + 8 ≤ o) :
    mixTail (withBlock B n w) o t h = mixTail B o t h := by
  rw [mixTail, mixTail, foldTail_congr o t h fun b hb _ => withBlock_other B n w (by omega)]

/-- Settles O32: a bijection in the block loop, then the tail and the finalisation on fixed bytes. -/
theorem hashIsBijectiveInEachBlock : Obligations.HashIsBijectiveInEachBlock := by
  intro B len n seed hn
  change Function.Bijective fun w => mix64 (withBlock B n w) len seed
  simp only [mix64, mixTail_withBlock B (len % 8) _ _ (show 8 * n + 8 ≤ 8 * (len / 8) by omega)]
  exact fin64_bijective.comp ((mixTail_bijective B _ _).comp (mixBlocks_withBlock_bijective B _ hn))

end Sys2Proof.Machine
end

/- What the hash reads, and the command that answers it. -/
section
namespace Sys2Proof.Machine

/-- Settles O28. -/
theorem hashReadsOnlyTheKey : Obligations.HashReadsOnlyTheKey :=
  fun _ _ len seed hagree => mix64_congr len seed hagree

/-- With length 0 there is no block, no tail and nothing to xor the seed with (R92, R100). -/
theorem mix64_empty (B : Nat → Byte) (seed : BitVec 32) : mix64 B 0 seed = fin64 (zext64 seed) := by
  have hinit : hashInit 0 seed = zext64 seed := by
    rw [hashInit, mul64, BitVec.zero_mul, BitVec.xor_zero]
  rw [← hinit]
  rfl

/-- Settles O29. -/
theorem emptyKeyHash : Obligations.EmptyKeyHash :=
  ⟨mix64_empty, fun B => (mix64_empty B _).trans (by decide), fun B => (mix64_empty B _).trans (by decide)⟩

/-- Settles O27: the answer hashes the buffer up to `KLEN`, which is the key presented. -/
theorem mhashHashesPresentedKey : Obligations.MhashHashesPresentedKey := by
  refine ⟨fun seed => mkFrame_setWidth 0x04#8 seed (k := 32) rfl, fun s seed => ?_,
    fun _ hop hreserved => decode_reservedBit (j := .mhash 0#32) hop hreserved⟩
  rw [State.mix64Bytes_keyBytes]
  exact exec_of_answer rfl

/-- Settles O51: the step from either state has one outcome, and the two outcomes are alike. -/
theorem stepCannotTellAlikeStates : Obligations.StepCannotTellAlikeStates := by
  intro s t s' t' halike hs ht
  obtain ⟨u, v, hu, hv, hnext⟩ := step_alike halike
  obtain rfl := Host.Outcome.next.inj (hs.symm.trans hu)
  obtain rfl := Host.Outcome.next.inj (ht.symm.trans hv)
  exact hnext

end Sys2Proof.Machine
end

/-! PROOFS, rehash: the Rehash Step is the hash of one block, it is a bijection, and RHASH answers it. -/

/- The Rehash Step as a function of the word. -/
section
namespace Sys2Proof.Machine

/-- Eight bytes are one full block and no tail, so their hash is the Rehash Step of the word they write (R93, R95,
R111). -/
theorem mix64_of_wordBytes {B : Nat → Byte} {w : Word} (seed : BitVec 32)
    (hbytes : ∀ j, j < 8 → B j = wordByte w j) : mix64 B 8 seed = rehash64 seed w := by
  have hblock : memRead B (8 * 0) 8 = w := memRead_wordByte fun j hj => by rw [Nat.mul_zero, Nat.zero_add, hbytes j hj]
  have hround : mixBlocks B 1 (hashInit 8 seed) = mixRound (hashInit 8 seed) w := by
    rw [mixBlocks_succ, mixBlocks_zero, hblock]
  calc
    mix64 B 8 seed = fin64 (mixTail B 8 0 (mixBlocks B 1 (hashInit 8 seed))) := rfl
    _ = fin64 (mixBlocks B 1 (hashInit 8 seed)) := by rw [mixTail, if_pos rfl]
    _ = rehash64 seed w := by rw [hround, rehash64]

/-- Settles O35: a block round as a function of its word, then the finalisation. -/
theorem rehashIsBijective : Obligations.RehashIsBijective :=
  fun seed => fin64_bijective.comp (mixRound_bijective_word (hashInit 8 seed))

/-- `h0` of R110: the constant is `8 * M` modulo 2^64. -/
theorem hashInit_eight (seed : BitVec 32) : hashInit 8 seed = zext64 seed ^^^ 0x35253C9ADE8F4CA8#64 := by
  have hlength : mul64 (BitVec.ofNat 64 8) hashM = 0x35253C9ADE8F4CA8#64 := by decide
  rw [hashInit, hlength]

/-- The zero word has nothing to mix in, so its round is the multiplication alone (R94). -/
theorem mixRound_zero_word (h : Word) : mixRound h 0#64 = mul64 h hashM := by
  have hzero : mixWord 0#64 = 0#64 := by decide
  rw [mixRound, hzero, BitVec.xor_zero]

end Sys2Proof.Machine
end

/- RHASH, and the three commands that hash the same word as a key. -/
section
namespace Sys2Proof.Machine

/-- Settles O33: RHASH has no effect but its answer. -/
theorem rhashAnswersRehash : Obligations.RhashAnswersRehash := by
  refine ⟨fun _ => rfl, fun _ _ => exec_of_answer rfl, fun seed => ?_, by decide⟩
  rw [rehash64, mixRound_zero_word, hashInit_eight, zext64]

/-- MHASH of a key of eight bytes answers the Rehash Step of the word they write (R98, R111). -/
theorem State.answerOf_mhash_of_wordBytes {s : State} {w : Word} (seed : BitVec 32) (hklen : s.klen.toNat = 8)
    (hkey : ∀ j, j < 8 → s.keyByte j = wordByte w j) : s.answerOf (.mhash seed) = .ok (rehash64 seed w) := by
  rw [State.answerOf, hklen, mix64_of_wordBytes seed hkey]

/-- The block after KCLR (R81). -/
def State.clearedKey (s : State) : State := (s.setKlen 0#32).respond 0#64

/-- After KCLR a push of `n` bytes has room wherever they fit an empty buffer (R81, R83). -/
theorem State.room_clearedKey {s : State} {n : Nat} (hcap : n ≤ s.cfg.keyCap) :
    s.clearedKey.klen.toNat + n ≤ s.clearedKey.cfg.keyCap := by
  simpa [State.clearedKey] using hcap

/-- After KCLR and KPUSHW the key is the word's eight bytes, whatever it was before, so MHASH answers its Rehash Step
(R80, R111). -/
theorem State.answerOf_mhash_pushed_clearedKey {s : State} (w : Word) (seed : BitVec 32) (hwf : s.cfg.wf = true)
    (hcap : 8 ≤ s.cfg.keyCap) : (s.clearedKey.pushed 8 w).answerOf (.mhash seed) = .ok (rehash64 seed w) := by
  apply State.answerOf_mhash_of_wordBytes
  · exact State.klen_pushed w hwf (State.room_clearedKey hcap)
  · intro j hj
    simpa [State.clearedKey] using s.clearedKey.keyByte_pushed_written w hj

/-- KCLR, KPUSHW and MHASH as moves of the host, where eight bytes fit the key buffer: one step each. -/
theorem run_kclr_kpushw_mhash {s : State} (w : Word) (seed : BitVec 32) (hwf : s.cfg.wf = true)
    (hcap : 8 ≤ s.cfg.keyCap) :
    run 3 { s with input := [.command (encode .kclr), .command (encode (.kpushw w)),
      .command (encode (.mhash seed))] } =
      .next (((State.clearedKey { s with input := [] }).pushed 8 w).respond (rehash64 seed w)) := by
  have hkclr (rest : List HostMove) :
      step { s with input := .command (encode .kclr) :: rest } = .next (State.clearedKey { s with input := rest }) :=
    (step_encode rfl).trans (exec_of_answer rfl)
  have hkpushw (rest : List HostMove) :
      step (State.clearedKey { s with input := .command (encode (.kpushw w)) :: rest }) =
        .next ((State.clearedKey { s with input := rest }).pushed 8 w) :=
    (step_encode rfl).trans (exec_kpushw w (State.room_clearedKey hcap))
  have hmhash : step ((State.clearedKey { s with input := [.command (encode (.mhash seed))] }).pushed 8 w) =
      .next (((State.clearedKey { s with input := [] }).pushed 8 w).respond (rehash64 seed w)) :=
    (step_encode rfl).trans
      (exec_of_answer (State.answerOf_mhash_pushed_clearedKey (s := { s with input := [] }) w seed hwf hcap))
  rw [run_succ_of_step 2 (hkclr _), run_succ_of_step 1 (hkpushw _), run_succ_of_step 0 hmhash]
  rfl

/-- Settles O34: RHASH and MHASH answer the same Rehash Step. -/
theorem rehashIsHashOfOneBlock : Obligations.RehashIsHashOfOneBlock := by
  refine ⟨fun seed w => (mix64_of_wordBytes seed fun _ _ => rfl).symm, fun s w hwf hcap => ?_⟩
  refine ⟨_, _, rehash64 s.cfg.seed w, exec_of_answer rfl, rfl, run_kclr_kpushw_mhash w s.cfg.seed hwf hcap, ?_⟩
  simp [State.clearedKey, State.pushed]

end Sys2Proof.Machine
end

/-! PROOFS, bitstream: the parts of a bit index, what GETBIT's fill writes and GETBIT answers, CRESET, RDCUR and RDW. -/

/- The parts of a bit index, and the bit that they select. -/
section
namespace Sys2Proof.Machine

/-- Settles O36: division by 64 and its remainder are a shift and a mask of 6 bits, and 26 bits are left of 32. -/
theorem bitIndexParts : Obligations.BitIndexParts := by
  intro i
  have hi := i.isLt
  have horder : bitOrder i < 2 ^ 26 := by
    unfold bitOrder
    omega
  refine ⟨?_, ?_, horder⟩
  · rw [BitVec.extractLsb'_toNat, Nat.shiftRight_zero]
    rfl
  · rw [BitVec.extractLsb'_toNat, Nat.shiftRight_eq_div_pow]
    exact (Nat.mod_eq_of_lt horder).symm

/-- The response data of a selected bit (R124). -/
theorem selectBit_eq_ite (w : Word) (p : Nat) : selectBit w p = if w.getLsbD p then 1#64 else 0#64 := by
  have hone : selectBit w p = BitVec.setWidth 64 (BitVec.ofBool (w.getLsbD p)) := by
    rw [selectBit, BitVec.and_one_eq_setWidth_ofBool_getLsbD, BitVec.getLsbD_ushiftRight, Nat.add_zero]
  rw [hone]
  cases w.getLsbD p <;> rfl

end Sys2Proof.Machine
end

/- GETBIT: its fill by index, its two outcomes, and what it answers. -/
section
namespace Sys2Proof.Machine

/-- The entry GETBIT selects is cached after its fill (R124). -/
theorem State.lt_firstMissing_fillTo (s : State) (order : Nat) : order < firstMissing (s.fillTo order).cur := by
  obtain ⟨hcur, -⟩ := s.fillTo_spec order
  omega

/-- The fill leaves every word outside the first missing one to `order` (R124, R125). -/
theorem State.word_fillTo_kept (s : State) {order n : Nat} (hn : n < firstMissing s.cur ∨ order < n) :
    (s.fillTo order).word n = s.word n := by
  obtain ⟨hcur, hkept, -⟩ := s.fillTo_spec order
  exact hkept n (by omega)

/-- The fill computes every word from the first missing one to `order` (R124). -/
theorem State.word_fillTo_filled (s : State) {order n : Nat} (hmissing : firstMissing s.cur ≤ n) (hn : n ≤ order) :
    (s.fillTo order).word n = (s.fillTo order).nextWord n := by
  obtain ⟨-, -, hnew⟩ := s.fillTo_spec order
  exact hnew n hmissing (hn.trans_lt (s.lt_firstMissing_fillTo order))

theorem State.nextWord_succ (s : State) (n : Nat) : s.nextWord (n + 1) = rehash64 s.cfg.seed (s.word n) := rfl

/-- Word 0 is computed from the key, which the fill does not change (R124). -/
theorem State.word_fillTo_zero (s : State) (order : Nat) (hempty : firstMissing s.cur = 0) :
    (s.fillTo order).word 0 = mix64 s.keyByte s.klen.toNat s.cfg.seed := by
  rw [s.word_fillTo_filled hempty.le (Nat.zero_le order), State.nextWord_zero_fillTo, streamWord_zero,
    State.mix64Bytes_keyBytes]

@[simp] theorem State.fillTo_keyBytes (s : State) (order : Nat) : (s.fillTo order).keyBytes = s.keyBytes := by
  rw [State.keyBytes, State.keyBytes, State.fillTo_klen, State.fillTo_keyByte]

/-- The block after a GETBIT whose order is in range (R124). -/
def State.bitAnswered (s : State) (i : BitVec 32) : State :=
  (s.fillTo (bitOrder i)).respond (selectBit ((s.fillTo (bitOrder i)).word (bitOrder i)) (bitPosition i))

theorem exec_getbit {s : State} {i : BitVec 32} (inRange : bitOrder i < s.cfg.cacheWords) :
    exec (.getbit i) s = .next (s.bitAnswered i) :=
  exec_of_answer (if_neg inRange.not_ge)

theorem exec_getbit_range {s : State} {i : BitVec 32} (outOfRange : s.cfg.cacheWords ≤ bitOrder i) :
    exec (.getbit i) s = .next (s.takeFault .cacheRange) :=
  exec_of_fault (if_pos outOfRange)

@[simp] theorem State.bitAnswered_cfg (s : State) (i : BitVec 32) : (s.bitAnswered i).cfg = s.cfg := by
  simp [State.bitAnswered]

/-- What GETBIT neither writes nor answers with (R32, R124). -/
theorem State.bitAnswered_frame (s : State) (i : BitVec 32) :
    (s.bitAnswered i).key = s.key ∧ (s.bitAnswered i).klen = s.klen ∧ (s.bitAnswered i).err = s.err ∧
      (s.bitAnswered i).cfg = s.cfg ∧ (s.bitAnswered i).input = s.input := by
  simp [State.bitAnswered]

theorem State.bitAnswered_output (s : State) (i : BitVec 32) :
    (s.bitAnswered i).output = s.output ++
      [{ status := .ok, data := selectBit ((s.fillTo (bitOrder i)).word (bitOrder i)) (bitPosition i) }] := by
  simp [State.bitAnswered]

/-- At or below the cursor GETBIT does nothing but answer (R125). -/
theorem State.bitAnswered_cached {s : State} {i : BitVec 32} (hcached : bitOrder i < firstMissing s.cur) :
    s.bitAnswered i = s.respond (selectBit (s.word (bitOrder i)) (bitPosition i)) := by
  rw [State.bitAnswered, s.fillTo_cached _ hcached]

/-- Settles O37: out of range the fault comes before the fill; in range the fill is all that GETBIT writes. -/
theorem getbitFillsAndAnswers : Obligations.GetbitFillsAndAnswers := by
  refine ⟨rfl, fun i => mkFrame_setWidth 0x06#8 i (k := 32) rfl, fun s i outOfRange => exec_getbit_range outOfRange,
    fun s i inRange => ?_, fun _ hop hreserved => decode_reservedBit (j := .getbit 0#32) hop hreserved⟩
  refine ⟨s.bitAnswered i, exec_getbit inRange, s.fillTo_cur _, fun hcached => ?_, fun n hn => s.word_fillTo_kept hn,
    s.word_fillTo_zero _, fun n hmissing hn => ?_, s.bitAnswered_output i, s.bitAnswered_frame i⟩
  · rw [State.bitAnswered_cached hcached, State.respond_words]
  · have hnext := s.word_fillTo_filled hmissing hn
    rwa [State.nextWord_succ, State.fillTo_cfg] at hnext

/-- Settles O38: the fill keeps the stream that the cache holds, and the word selected is a cached one. -/
theorem getbitAnswersStreamBit : Obligations.GetbitAnswersStreamBit := by
  intro s K i hK hnow inRange
  have hfilled : (s.fillTo (bitOrder i)).CacheHolds K := State.fillTo_cacheHolds _ hK hnow
  have hword : (s.fillTo (bitOrder i)).word (bitOrder i) = streamWord s.cfg.seed K (bitOrder i) := by
    rw [hfilled _ (s.lt_firstMissing_fillTo _), State.fillTo_cfg]
  obtain ⟨hcur, -⟩ := s.fillTo_spec (bitOrder i)
  refine ⟨s.bitAnswered i, exec_getbit inRange, ?_, hfilled, hcur, s.fillTo_keyBytes _⟩
  rw [State.bitAnswered_output, hword, selectBit_eq_ite]
  rfl

/-- Settles O39: the first GETBIT leaves the word it selects cached, so the second one does nothing but answer. -/
theorem getbitNeverRecomputes : Obligations.GetbitNeverRecomputes := by
  intro s t i hexec
  rcases Nat.lt_or_ge (bitOrder i) s.cfg.cacheWords with inRange | outOfRange
  · obtain rfl := Host.Outcome.next.inj ((exec_getbit inRange).symm.trans hexec)
    refine ⟨fun n hn => s.word_fillTo_kept (.inl hn), fun hcached => ?_, fun _ => ?_⟩
    · rw [State.bitAnswered_cached hcached]
      exact ⟨rfl, rfl⟩
    · have hcached : bitOrder i < firstMissing (s.bitAnswered i).cur := s.lt_firstMissing_fillTo _
      refine ⟨_, s.bitAnswered_output i, rfl, ?_⟩
      rw [exec_getbit (by rwa [State.bitAnswered_cfg]), State.bitAnswered_cached hcached]
      rfl
  · obtain rfl := Host.Outcome.next.inj ((exec_getbit_range outOfRange).symm.trans hexec)
    exact ⟨fun _ _ => rfl, fun _ => ⟨rfl, rfl⟩, fun inRange => absurd inRange outOfRange.not_gt⟩

end Sys2Proof.Machine
end

/- GETBIT with another key in the buffer. -/
section
namespace Sys2Proof.Machine

/-- The same block with another key buffer. -/
def State.withKey (s : State) (m : Memory) (k : BitVec 32) : State := { s with key := m, klen := k }

/-- Every word but word 0 is computed from the word before it, so a fill from there on does not read the key (R126). -/
theorem State.fillWords_withKey (s : State) (m : Memory) (k : BitVec 32) (first count : Nat) :
    (s.withKey m k).fillWords (first + 1) count = (s.fillWords (first + 1) count).withKey m k := by
  induction count generalizing s first with
  | zero => rfl
  | succ count ih =>
    have hwrite : (s.withKey m k).writeWord (first + 1) ((s.withKey m k).nextWord (first + 1)) =
        (s.writeWord (first + 1) (s.nextWord (first + 1))).withKey m k := rfl
    rw [State.fillWords_succ, State.fillWords_succ, hwrite, ih]

theorem State.fillTo_withKey {s : State} {c : Nat} (hcur : s.cur = some c) (m : Memory) (k : BitVec 32) (order : Nat) :
    (s.withKey m k).fillTo order = (s.fillTo order).withKey m k := by
  have hcur' : (s.withKey m k).cur = s.cur := rfl
  rw [State.fillTo, State.fillTo, hcur', hcur, firstMissing_some]
  split
  · rw [State.fillWords_withKey]
    rfl
  · rfl

theorem State.bitAnswered_withKey {s : State} {c : Nat} (hcur : s.cur = some c) (m : Memory) (k : BitVec 32)
    (i : BitVec 32) : (s.withKey m k).bitAnswered i = (s.bitAnswered i).withKey m k := by
  rw [State.bitAnswered, State.fillTo_withKey hcur]
  rfl

/-- Settles O40: neither the range check nor the fill above word 0 nor the answer reads the key buffer. -/
theorem getbitIgnoresKeyOnceCached : Obligations.GetbitIgnoresKeyOnceCached := by
  intro s t i c m k hcur hexec
  change exec (.getbit i) (s.withKey m k) = .next (t.withKey m k)
  rcases Nat.lt_or_ge (bitOrder i) s.cfg.cacheWords with inRange | outOfRange
  · obtain rfl := Host.Outcome.next.inj ((exec_getbit inRange).symm.trans hexec)
    rw [← State.bitAnswered_withKey hcur]
    exact exec_getbit inRange
  · obtain rfl := Host.Outcome.next.inj ((exec_getbit_range outOfRange).symm.trans hexec)
    exact exec_getbit_range outOfRange

end Sys2Proof.Machine
end

/- The cursor and the words up to it, as CRESET writes and RDCUR and RDW read them. -/
section
namespace Sys2Proof.Machine

/-- In a legal state the cursor is none or below `CACHE_WORDS` (R22). -/
theorem State.firstMissing_le_of_legal {s : State} (hlegal : s.legal = true) :
    firstMissing s.cur ≤ s.cfg.cacheWords := by
  obtain ⟨-, -, hwords, -⟩ := s.legal_iff.mp hlegal
  exact hwords.bound

/-- An index beyond the cursor: every one is when the cursor is none (R22, R130). -/
theorem firstMissing_le_iff (cur : Option Nat) (n : Nat) :
    firstMissing cur ≤ n ↔ cur = none ∨ ∃ c, cur = some c ∧ c < n := by
  cases cur with
  | none => simp [firstMissing_none]
  | some c => simp [firstMissing_some]

theorem State.answerOf_rdw {s : State} {n : BitVec 32} (hcached : n.toNat < firstMissing s.cur) :
    s.answerOf (.rdw n) = .ok (s.word n.toNat) :=
  if_pos hcached

theorem State.answerOf_rdw_invalid {s : State} {n : BitVec 32} (hbeyond : firstMissing s.cur ≤ n.toNat) :
    s.answerOf (.rdw n) = .error .wordInvalid :=
  if_neg hbeyond.not_gt

/-- Settles O42: the cursor is all that CRESET writes. -/
theorem cresetClearsCursorOnly : Obligations.CresetClearsCursorOnly :=
  ⟨rfl, fun _ => exec_of_answer rfl, fun _ hop harg => decode_operand_of_N (j := .creset) hop rfl harg⟩

theorem exec_rdcur {s : State} {d : Word} (hdata : cursorData s.cur = d) : exec .rdcur s = .next (s.respond d) :=
  exec_of_answer (congrArg Except.ok hdata)

/-- Settles O44: a cursor that fits 64 bits is its own number, and none is all ones. -/
theorem rdcurReadsCursor : Obligations.RdcurReadsCursor := by
  refine ⟨rfl, fun _ hnone => exec_rdcur (congrArg cursorData hnone), fun s c hcur hbound => ?_, State.resetWith_cur,
    fun s t hexec => ?_, fun s c hlegal hcur => ?_,
    fun _ hop harg => decode_operand_of_N (j := .rdcur) hop rfl harg⟩
  · have hdata : (cursorData (some c)).toNat = c := (BitVec.toNat_ofNat c 64).trans (Nat.mod_eq_of_lt hbound)
    exact ⟨_, hdata, exec_rdcur (congrArg cursorData hcur)⟩
  · obtain ⟨-, hcreset, -⟩ := cresetClearsCursorOnly
    obtain rfl := Host.Outcome.next.inj ((hcreset s).symm.trans hexec)
    rfl
  · have hbound := State.firstMissing_le_of_legal hlegal
    rw [hcur, firstMissing_some] at hbound
    omega

/-- Settles O45: at or below the cursor RDW answers the word, beyond it the fault; a legal cursor is below
`CACHE_WORDS`. -/
theorem rdwReadsOnlyValidWords : Obligations.RdwReadsOnlyValidWords := by
  refine ⟨rfl, fun n => mkFrame_setWidth 0x09#8 n (k := 32) rfl, fun s n c hcur hn => ?_, fun s n hbeyond => ?_,
    fun s n hlegal hn => ?_, fun _ hop hreserved => decode_reservedBit (j := .rdw 0#32) hop hreserved⟩
  · exact exec_of_answer (State.answerOf_rdw (by rw [hcur, firstMissing_some]; omega))
  · exact exec_of_fault (State.answerOf_rdw_invalid ((firstMissing_le_iff s.cur n.toNat).mpr hbeyond))
  · exact (firstMissing_le_iff s.cur n.toNat).mp ((State.firstMissing_le_of_legal hlegal).trans hn)

end Sys2Proof.Machine
end

/-! PROOFS, system: NOP and RDERR, the constants RDCFG answers and no step changes. -/

/- NOP and RDERR: a frame without operand, an answer, no effect of their own. -/
section
namespace Sys2Proof.Machine

/-- Settles O18. -/
theorem nopAnswersZero : Obligations.NopAnswersZero :=
  ⟨rfl, fun _ => exec_of_answer rfl, fun _ hop harg => decode_operand_of_N (j := .nop) hop rfl harg⟩

/-- Settles O20: the latch is the answer, and no part of the effect. -/
theorem rderrReadsLatch : Obligations.RderrReadsLatch :=
  ⟨rfl, fun _ => exec_of_answer rfl, fun _ hop harg => decode_operand_of_N (j := .rderr) hop rfl harg⟩

end Sys2Proof.Machine
end

/- RDCFG's constants: they fit the word it answers, and every step keeps them. -/
section
namespace Sys2Proof.Machine

/-- A parameter in its range is the number its 64-bit word stands for (R8, R142). -/
theorem toNat_parameter {n : Nat} (hn : n < 2 ^ 32) : (BitVec.ofNat 64 n).toNat = n :=
  (BitVec.toNat_ofNat n 64).trans (Nat.mod_eq_of_lt (hn.trans (by decide)))

theorem Config.cacheWords_lt_of_wf {c : Config} (h : c.wf = true) : c.cacheWords < 2 ^ 32 := by
  simp only [Config.wf, Bool.and_eq_true, decide_eq_true_eq] at h
  omega

/-- The parameters are written by no effect, by no fault and by no reset (R20, R142). -/
theorem step_keeps_cfg {s t : State} (hstep : step s = .next t) : t.cfg = s.cfg := by
  obtain ⟨-, h⟩ | ⟨rest, -, h⟩ | ⟨f, rest, c, -, h⟩ | ⟨f, rest, u, d, -, heffect, h⟩ := step_effects s <;>
    obtain rfl := Host.Outcome.next.inj (h.symm.trans hstep)
  · rfl
  · exact State.applyReset_cfg _
  · exact State.takeFault_cfg _ c
  · obtain ⟨hcfg, -⟩ := heffect.frame
    exact hcfg

/-- Settles O19: selectors 0, 1 and 2 have an answer, no other selector and no wider operand has one. -/
theorem rdcfgReadsConstants : Obligations.RdcfgReadsConstants :=
  ⟨fun _ => exec_of_answer rfl,
    fun _ hwf => ⟨_, toNat_parameter (Config.cacheWords_lt_of_wf hwf), exec_of_answer rfl⟩,
    fun _ hwf => ⟨_, toNat_parameter (Config.keyCap_lt_of_wf hwf), exec_of_answer rfl⟩,
    fun s _ hsel => execRdcfg_unknown s hsel,
    fun _ hop hreserved => decode_reservedBit (j := .rdcfg 0#8) hop hreserved,
    fun _ _ hstep => step_keeps_cfg hstep⟩

end Sys2Proof.Machine
end

/-! PROOFS, host selector: the tree depth, the pool size check, the range of a bucket, the bit indices asked, the client
on the block and the client on the key's bits. -/

/- The tree depth is the logarithm to base 2, rounded up. -/
section
namespace Sys2Proof.Machine

/-- The depth loop stops at the rounded-up logarithm when it starts at or below it with enough turns left (R162). -/
theorem depthLoop_eq_clog {m fuel d : Nat} (hstart : d ≤ Nat.clog 2 m) (hfuel : Nat.clog 2 m ≤ d + fuel) :
    depthLoop m fuel d = Nat.clog 2 m := by
  induction fuel generalizing d with
  | zero => exact hstart.antisymm hfuel
  | succ fuel ih =>
    rw [depthLoop]
    split
    · rename_i hbelow
      exact ih ((Nat.lt_clog_iff_pow_lt one_lt_two).mpr hbelow) (by omega)
    · rename_i hcovers
      exact hstart.antisymm (Nat.clog_le_of_le_pow (Nat.le_of_not_lt hcovers))

theorem treeDepth_eq_clog (m : Nat) : treeDepth m = Nat.clog 2 m :=
  depthLoop_eq_clog (Nat.zero_le _) (Nat.clog_le_of_le_pow (by simpa using m.lt_two_pow_self.le))

/-- Settles O55. -/
theorem treeDepthIsLeast : Obligations.TreeDepthIsLeast := by
  intro m
  rw [treeDepth_eq_clog]
  exact ⟨Nat.le_pow_clog one_lt_two m, fun _ => Nat.clog_le_of_le_pow, Nat.clog_pos one_lt_two,
    fun _ => Nat.clog_le_of_le_pow⟩

end Sys2Proof.Machine
end

/- The check of the pool size that every entry point begins with. -/
section
namespace Sys2Proof.Machine

/-- R153 and R154, then the rest of an entry point. -/
def poolSizeChecked {σ : Type} (h : HostConfig) (m : Nat) (s : σ) (rest : SelectResult × σ) : SelectResult × σ :=
  if maximumPoolSize h < m then (.invalidPoolSize, s) else if m ≤ 1 then (.bucket 0, s) else rest

section
variable {σ : Type} {h : HostConfig} {m : Nat}

theorem poolSizeChecked_of_limit_lt (hm : 2 ^ h.shift < m) (s : σ) (rest : SelectResult × σ) :
    poolSizeChecked h m s rest = (.invalidPoolSize, s) :=
  if_pos hm

theorem poolSizeChecked_of_le_one (hm : m ≤ 1) (s : σ) (rest : SelectResult × σ) :
    poolSizeChecked h m s rest = (.bucket 0, s) := by
  have hlimit : ¬ maximumPoolSize h < m := (hm.trans Nat.one_le_two_pow).not_gt
  rw [poolSizeChecked, if_neg hlimit, if_pos hm]

theorem poolSizeChecked_of_between (hone : 1 < m) (hlimit : m ≤ 2 ^ h.shift) (s : σ) (rest : SelectResult × σ) :
    poolSizeChecked h m s rest = rest := by
  rw [poolSizeChecked, if_neg (show ¬ maximumPoolSize h < m from hlimit.not_gt), if_neg hone.not_ge]

theorem poolSize_cases (h : HostConfig) (m : Nat) : 2 ^ h.shift < m ∨ m ≤ 1 ∨ (1 < m ∧ m ≤ 2 ^ h.shift) := by
  omega

theorem selectWith_eq_checked (ask : Nat → σ → BitReply × σ) (h : HostConfig) (m : Nat) (s : σ) :
    selectWith ask h m s =
      poolSizeChecked h m s (attempts ask h.shift m h.maxTries (treeDepth m) (treeDepth m) s) :=
  rfl

end

/-- The block after CRESET: the cursor empty, and the response (R128). -/
theorem hostCall_creset (s : State) : hostCall .creset s = (.answer 0#64, (s.setCur none).respond 0#64) :=
  hostCall_of_answer rfl

theorem selectBucket_eq_checked (h : HostConfig) (m : Nat) (s : State) :
    selectBucket h m s =
      poolSizeChecked h m s (selectBucketWithCache h m ((s.setCur none).respond 0#64)) := by
  rw [selectBucket, hostCall_creset]
  rfl

/-- The rest of `selectBucketOfKey` once the key is to be loaded (R163). -/
def loadAndSelect (h : HostConfig) (K : List Byte) (m : Nat) (s : State) : SelectResult × State :=
  match hostCalls (keySequence K) s with
  | (none, t) => selectBucket h m t
  | (some f, t) => (.failed f, t)

theorem loadAndSelect_of_loaded {h : HostConfig} {K : List Byte} {m : Nat} {s t : State}
    (hload : hostCalls (keySequence K) s = (none, t)) : loadAndSelect h K m s = selectBucket h m t := by
  rw [loadAndSelect, hload]

theorem selectBucketOfKey_eq_checked (h : HostConfig) (K : List Byte) (m : Nat) (s : State) :
    selectBucketOfKey h K m s = poolSizeChecked h m s (loadAndSelect h K m s) :=
  rfl

/-- Settles O54: the check stands first in all three entry points. -/
theorem poolSizeSettledWithoutBlock : Obligations.PoolSizeSettledWithoutBlock := by
  intro h K m s
  rw [selectBucket_eq_checked, selectBucketWithCache, selectWith_eq_checked, selectBucketOfKey_eq_checked]
  exact ⟨fun hm => ⟨poolSizeChecked_of_limit_lt hm _ _, poolSizeChecked_of_limit_lt hm _ _,
      poolSizeChecked_of_limit_lt hm _ _⟩,
    fun hm => ⟨poolSizeChecked_of_le_one hm _ _, poolSizeChecked_of_le_one hm _ _,
      poolSizeChecked_of_le_one hm _ _⟩⟩

end Sys2Proof.Machine
end

/- One turn of each of the client's loops, by what it is answered. -/
section
namespace Sys2Proof.Machine

variable {σ : Type} {ask : Nat → σ → BitReply × σ} {shift m tries d a : Nat} {s t : σ}

/-- A level test that gets its bit: found at a 1, the next lower depth at a 0 (R158). -/
theorem levelTest_of_bit {b : Bool} (hask : ask a s = (.bit b, t)) :
    levelTest ask (d + 1) a s = if b then (.found (d + 1) a, t) else levelTest ask d d t := by
  rw [levelTest, hask]
  cases b <;> rfl

/-- A candidate's bit is shifted in (R159). -/
theorem collectBits_of_bit {count num : Nat} {b : Bool} (hask : ask a s = (.bit b, t)) :
    collectBits ask shift (count + 1) a num s = collectBits ask shift count (a + shift) (2 * num + b.toNat) t := by
  rw [collectBits, hask]

theorem attempts_of_bottom (htest : levelTest ask d a s = (.bottom, t)) :
    attempts ask shift m (tries + 1) d a s = (.bucket 0, t) := by
  rw [attempts, htest]

/-- A candidate below the pool size is accepted, any other leaves the next attempt its depth and position (R159). -/
theorem attempts_of_candidate {d' a' a'' num : Nat} {u : σ} (htest : levelTest ask d a s = (.found d' a', t))
    (hcollect : collectBits ask shift (d' - 1) (a' + shift) 1 t = (.candidate num a'', u)) :
    attempts ask shift m (tries + 1) d a s =
      if num < m then (.bucket num, u) else attempts ask shift m tries d' a'' u := by
  simp only [attempts, htest, hcollect]

/-- What an attempt can do, whoever answers: end in bucket 0, fail, accept a candidate below `m`, or leave the rest to
the attempts after it (R158 to R161). -/
theorem attempts_succ_cases (ask : Nat → σ → BitReply × σ) (shift m tries d a : Nat) (s : σ) :
    (∃ t, attempts ask shift m (tries + 1) d a s = (.bucket 0, t)) ∨
    (∃ f t, attempts ask shift m (tries + 1) d a s = (.failed f, t)) ∨
    (∃ num t, num < m ∧ attempts ask shift m (tries + 1) d a s = (.bucket num, t)) ∨
    (∃ d' a' t, attempts ask shift m (tries + 1) d a s = attempts ask shift m tries d' a' t) := by
  obtain ⟨result, t, htest⟩ : ∃ result t, levelTest ask d a s = (result, t) := ⟨_, _, rfl⟩
  cases result with
  | bottom => exact .inl ⟨t, attempts_of_bottom htest⟩
  | failed f => exact .inr (.inl ⟨f, t, by rw [attempts, htest]⟩)
  | found d' a' =>
    obtain ⟨result, u, hcollect⟩ :
        ∃ result u, collectBits ask shift (d' - 1) (a' + shift) 1 t = (result, u) := ⟨_, _, rfl⟩
    cases result with
    | failed f => exact .inr (.inl ⟨f, u, by simp only [attempts, htest, hcollect]⟩)
    | candidate num a'' =>
      rw [attempts_of_candidate htest hcollect]
      split
      · exact .inr (.inr (.inl ⟨num, u, ‹_›, rfl⟩))
      · exact .inr (.inr (.inr ⟨d', a'', u, rfl⟩))

/-- A bucket that the attempts return is 0 or a candidate that was accepted. -/
theorem attempts_bucket_lt {n : Nat} (hm : 0 < m) (h : attempts ask shift m tries d a s = (.bucket n, t)) : n < m := by
  induction tries generalizing d a s with
  | zero =>
    obtain ⟨rfl, -⟩ : 0 = n ∧ s = t := by simpa [attempts] using h
    exact hm
  | succ tries ih =>
    obtain ⟨u, heq⟩ | ⟨f, u, heq⟩ | ⟨num, u, hnum, heq⟩ | ⟨d', a', u, heq⟩ :=
      attempts_succ_cases ask shift m tries d a s <;> rw [heq] at h
    · obtain ⟨rfl, -⟩ : 0 = n ∧ u = t := by simpa using h
      exact hm
    · simp at h
    · obtain ⟨rfl, -⟩ : num = n ∧ u = t := by simpa using h
      exact hnum
    · exact ih h

/-- Settles O53: a pool size that is settled at once returns bucket 0 or none. -/
theorem bucketInRange : Obligations.BucketInRange := by
  intro ask h m n s t hselect
  rw [selectWith_eq_checked] at hselect
  obtain hm | hm | ⟨hone, hlimit⟩ := poolSize_cases h m
  · simp [poolSizeChecked_of_limit_lt hm] at hselect
  · obtain ⟨rfl, -⟩ : 0 = n ∧ s = t := by simpa [poolSizeChecked_of_le_one hm] using hselect
    exact lt_max_of_lt_right one_pos
  · rw [poolSizeChecked_of_between hone hlimit] at hselect
    exact lt_max_of_lt_left (attempts_bucket_lt (by omega) hselect)

end Sys2Proof.Machine
end

/- The bit indices that the attempts left can ask. -/
section
namespace Sys2Proof.Machine

/-- With `tries` attempts left from depth `d` and position `a`, no index beyond `bound` is asked: an attempt asks `d`
indices a stride apart, and the next one starts a stride after the last of them (R160). -/
structure WithinBound (shift bound tries d a : Nat) : Prop where
  depth_pos : 0 < d
  depth_le : d ≤ a
  reach : a + shift * (tries * d) ≤ bound + shift

namespace WithinBound
variable {shift bound tries d a : Nat}

/-- The start of the client: for every pool size within the limit the depth is at most `SHIFT` (R156, R160). -/
theorem start {depth : Nat} (hpos : 0 < depth) (hdepth : depth ≤ shift) (tries : Nat) :
    WithinBound shift (tries * shift ^ 2) tries depth depth where
  depth_pos := hpos
  depth_le := Nat.le_refl _
  reach := calc
    depth + shift * (tries * depth) ≤ shift + shift * (tries * shift) := by gcongr
    _ = tries * shift ^ 2 + shift := by ring

/-- Backtracking only lowers the depth and the position (R158, R160). -/
theorem backtrack {d' a' : Nat} (h : WithinBound shift bound tries d a) (hpos : 0 < d') (hd : d' ≤ d) (hda : d' ≤ a')
    (ha : a' ≤ a) : WithinBound shift bound tries d' a' where
  depth_pos := hpos
  depth_le := hda
  reach := calc
    a' + shift * (tries * d') ≤ a + shift * (tries * d) := by gcongr
    _ ≤ bound + shift := h.reach

/-- A rejected attempt leaves the position `d` strides on, and one attempt fewer (R159). -/
theorem advance (h : WithinBound shift bound (tries + 1) d a) : WithinBound shift bound tries d (a + shift * d) where
  depth_pos := h.depth_pos
  depth_le := h.depth_le.trans (Nat.le_add_right _ _)
  reach := calc
    a + shift * d + shift * (tries * d) = a + shift * ((tries + 1) * d) := by ring
    _ ≤ bound + shift := h.reach

/-- Where an attempt ends is at most a stride beyond the bound, so its own indices are within it. -/
theorem end_le (h : WithinBound shift bound (tries + 1) d a) : a + shift * d ≤ bound + shift :=
  le_of_add_le_left h.advance.reach

/-- The level test's index. -/
theorem position_le (h : WithinBound shift bound (tries + 1) d a) : a ≤ bound := by
  have hstride : shift ≤ shift * d := Nat.le_mul_of_pos_right _ h.depth_pos
  have hend := h.end_le
  omega

end WithinBound

end Sys2Proof.Machine
end

/- Two parties that answer the same bits up to a bound, and the client with either of them. -/
section
namespace Sys2Proof.Machine

/-- A simulation: from related states both parties answer every index up to `bound` with the same bit, and end in related
states. -/
def AnswerAlike {σ τ : Type} (ask : Nat → σ → BitReply × σ) (ask' : Nat → τ → BitReply × τ) (bound : Nat)
    (R : σ → τ → Prop) : Prop :=
  ∀ a s u, a ≤ bound → R s u → ∃ b t v, ask a s = (.bit b, t) ∧ ask' a u = (.bit b, v) ∧ R t v

/-- What the level tests from depth `d` and position `a` can end in, when every bit is answered (R158). -/
def LevelResult.Reachable (d a : Nat) : LevelResult → Prop
  | .found d' a' => 0 < d' ∧ d' ≤ d ∧ d' ≤ a' ∧ a' ≤ a
  | .bottom => True
  | .failed _ => False

theorem LevelResult.Reachable.mono {d a d' a' : Nat} {result : LevelResult} (h : result.Reachable d' a') (hd : d' ≤ d)
    (ha : a' ≤ a) : result.Reachable d a := by
  cases result with
  | found =>
    obtain ⟨hpos, hdepth, hda, hposition⟩ := h
    exact ⟨hpos, hdepth.trans hd, hda, hposition.trans ha⟩
  | bottom => trivial
  | failed => exact h

variable {σ τ : Type} {ask : Nat → σ → BitReply × σ} {ask' : Nat → τ → BitReply × τ} {bound : Nat} {R : σ → τ → Prop}
  {shift : Nat} {s : σ} {u : τ}

theorem levelTest_alike (halike : AnswerAlike ask ask' bound R) {d a : Nat} (hR : R s u) (hda : d ≤ a)
    (ha : a ≤ bound) :
    ∃ result t v, levelTest ask d a s = (result, t) ∧ levelTest ask' d a u = (result, v) ∧ R t v ∧
      result.Reachable d a := by
  induction d generalizing a s u with
  | zero => exact ⟨.bottom, s, u, rfl, rfl, hR, trivial⟩
  | succ d ih =>
    obtain ⟨b, t, v, hask, hask', hR'⟩ := halike a s u ha hR
    rw [levelTest_of_bit hask, levelTest_of_bit hask']
    cases b with
    | true => exact ⟨.found (d + 1) a, t, v, rfl, rfl, hR', d.succ_pos, Nat.le_refl _, hda, Nat.le_refl _⟩
    | false =>
      obtain ⟨result, t', v', htest, htest', hR'', hreach⟩ := ih hR' (Nat.le_refl d) (by omega)
      exact ⟨result, t', v', htest, htest', hR'', hreach.mono (Nat.le_succ d) (by omega)⟩

theorem collectBits_alike (halike : AnswerAlike ask ask' bound R) {count a : Nat} (num : Nat) (hR : R s u)
    (hend : a + shift * count ≤ bound + shift) :
    ∃ num' t v, collectBits ask shift count a num s = (.candidate num' (a + shift * count), t) ∧
      collectBits ask' shift count a num u = (.candidate num' (a + shift * count), v) ∧ R t v := by
  induction count generalizing a num s u with
  | zero => exact ⟨num, s, u, rfl, rfl, hR⟩
  | succ count ih =>
    have hnext : a + shift * (count + 1) = a + shift + shift * count := by ring
    rw [hnext] at hend ⊢
    obtain ⟨b, t, v, hask, hask', hR'⟩ := halike a s u (by omega) hR
    rw [collectBits_of_bit hask, collectBits_of_bit hask']
    exact ih (2 * num + b.toNat) hR' hend

/-- By induction on the attempts left: none fails, and both parties' clients take the same turns. -/
theorem attempts_alike (halike : AnswerAlike ask ask' bound R) (m : Nat) {tries d a : Nat} (hR : R s u)
    (hbound : WithinBound shift bound tries d a) :
    ∃ n t v, attempts ask shift m tries d a s = (.bucket n, t) ∧ attempts ask' shift m tries d a u = (.bucket n, v) ∧
      R t v := by
  induction tries generalizing d a s u with
  | zero => exact ⟨0, s, u, rfl, rfl, hR⟩
  | succ tries ih =>
    obtain ⟨result, t, v, htest, htest', hR', hreach⟩ :=
      levelTest_alike halike hR hbound.depth_le hbound.position_le
    cases result with
    | bottom => exact ⟨0, t, v, attempts_of_bottom htest, attempts_of_bottom htest', hR'⟩
    | failed => exact hreach.elim
    | found d' a' =>
      obtain ⟨hpos, hd, hda, ha⟩ := hreach
      have hfound := hbound.backtrack hpos hd hda ha
      have hstrides : a' + shift + shift * (d' - 1) = a' + shift * d' := by
        obtain ⟨k, rfl⟩ := Nat.exists_eq_add_of_lt hpos
        simp only [Nat.add_sub_cancel]
        ring
      obtain ⟨num, t', v', hcollect, hcollect', hR''⟩ :=
        collectBits_alike (shift := shift) (count := d' - 1) (a := a' + shift) halike 1 hR'
          (hstrides.trans_le hfound.end_le)
      rw [hstrides] at hcollect hcollect'
      rw [attempts_of_candidate htest hcollect, attempts_of_candidate htest' hcollect']
      split
      · exact ⟨num, t', v', rfl, rfl, hR''⟩
      · exact ih hR'' hfound.advance

/-- The client cannot tell the two parties apart, and neither makes it fail (R160, R164). -/
theorem selectWith_alike {h : HostConfig} (m : Nat) (halike : AnswerAlike ask ask' (h.maxTries * h.shift ^ 2) R)
    (hR : R s u) :
    ∃ result t v, selectWith ask h m s = (result, t) ∧ selectWith ask' h m u = (result, v) ∧ R t v ∧
      ∀ f, result ≠ .failed f := by
  rw [selectWith_eq_checked, selectWith_eq_checked]
  obtain hm | hm | ⟨hone, hlimit⟩ := poolSize_cases h m
  · rw [poolSizeChecked_of_limit_lt hm, poolSizeChecked_of_limit_lt hm]
    exact ⟨.invalidPoolSize, s, u, rfl, rfl, hR, nofun⟩
  · rw [poolSizeChecked_of_le_one hm, poolSizeChecked_of_le_one hm]
    exact ⟨.bucket 0, s, u, rfl, rfl, hR, nofun⟩
  · rw [poolSizeChecked_of_between hone hlimit, poolSizeChecked_of_between hone hlimit]
    obtain ⟨-, -, hpos, hdepth⟩ := treeDepthIsLeast m
    obtain ⟨n, t, v, hleft, hright, hR'⟩ :=
      attempts_alike halike m hR (WithinBound.start (hpos hone) (hdepth _ hlimit) h.maxTries)
    exact ⟨.bucket n, t, v, hleft, hright, hR', nofun⟩

/-- Settles O56: up to the bound the party answers as one that answers every index, so it does not make the client fail. -/
theorem clientIndicesBounded : Obligations.ClientIndicesBounded := by
  intro h bits m f _
  obtain ⟨result, t, -, hselect, -, -, hok⟩ :=
    selectWith_alike (h := h) (ask' := fun a u => (.bit (bits a), u)) (R := fun _ _ => True) (s := ()) (u := ()) m
      (fun a s u ha _ => ⟨bits a, s, u, if_pos ha, rfl, trivial⟩) trivial
  rw [hselect]
  exact hok f

end Sys2Proof.Machine
end

/- The block as a party that answers the bits of the key presented. -/
section
namespace Sys2Proof.Machine

/-- What the client's GETBITs keep of a block `s`: `t` is cache-valid for the same key, with the same latch and
parameters. -/
structure State.ServesAs (s t : State) : Prop where
  valid : t.CacheValidNow
  key : t.keyBytes = s.keyBytes
  err : t.err = s.err
  cfg : t.cfg = s.cfg

theorem State.ServesAs.trans {s t u : State} (h : s.ServesAs t) (h' : t.ServesAs u) : s.ServesAs u :=
  ⟨h'.valid, h'.key.trans h.key, h'.err.trans h.err, h'.cfg.trans h.cfg⟩

theorem hostCall_of_exec {i : Instr} {s t : State} {d : Word} (hexec : exec i s = .next t)
    (houtput : t.output = s.output ++ [{ status := .ok, data := d }]) : hostCall i s = (.answer d, t) := by
  simp [hostCall, step_offer, hexec, houtput]

/-- A block that is cache-valid for its key answers the key's bit at every index that fits the operand and the cache
(R124, R127). -/
theorem askBlock_of_valid {s : State} {a : Nat} (hvalid : s.CacheValidNow) (hfits : a < 2 ^ 32)
    (hrange : a / 64 < s.cfg.cacheWords) :
    ∃ t, askBlock a s = (.bit (streamBit s.cfg.seed s.keyBytes a), t) ∧ s.ServesAs t := by
  have hindex : (BitVec.ofNat 32 a).toNat = a := (BitVec.toNat_ofNat a 32).trans (Nat.mod_eq_of_lt hfits)
  have hinRange : bitOrder (BitVec.ofNat 32 a) < s.cfg.cacheWords := by rwa [bitOrder, hindex]
  obtain ⟨t, hexec, houtput, hcache, -, hkey⟩ := getbitAnswersStreamBit s s.keyBytes _ hvalid (fun _ => rfl) hinRange
  obtain rfl := Host.Outcome.next.inj ((exec_getbit hinRange).symm.trans hexec)
  obtain ⟨-, -, herr, hcfg, -⟩ := s.bitAnswered_frame (BitVec.ofNat 32 a)
  refine ⟨_, ?_, by rwa [State.CacheValidNow, hkey], hkey, herr, hcfg⟩
  rw [askBlock, if_pos hfits, hostCall_of_exec hexec houtput, hindex]
  cases streamBit s.cfg.seed s.keyBytes a <;> rfl

/-- R150 and R160: every index that the client asks fits GETBIT's operand and the cache. -/
theorem HostConfig.index_fits {h : HostConfig} {c : Config} {a : Nat} (hwf : h.wf = true) (hfits : h.fitsCache c = true)
    (ha : a ≤ h.maxTries * h.shift ^ 2) : a < 2 ^ 32 ∧ a / 64 < c.cacheWords := by
  simp only [HostConfig.wf, HostConfig.fitsCache, Bool.and_eq_true, decide_eq_true_eq] at hwf hfits
  omega

/-- The block and the party that knows the key's stream answer alike, as far as the client asks (R160). -/
theorem askBlock_alike_askStream {h : HostConfig} {s : State} (hwf : h.wf = true) (hfits : h.fitsCache s.cfg = true) :
    AnswerAlike askBlock (askStream s.cfg.seed s.keyBytes) (h.maxTries * h.shift ^ 2) (fun t _ => s.ServesAs t) := by
  intro a t u ha hserves
  obtain ⟨hoperand, hrange⟩ := HostConfig.index_fits hwf hfits ha
  obtain ⟨t', hask, hserves'⟩ := askBlock_of_valid hserves.valid hoperand (hserves.cfg ▸ hrange)
  rw [hserves.cfg, hserves.key] at hask
  exact ⟨_, t', u, hask, rfl, hserves.trans hserves'⟩

/-- Settles O57. -/
theorem cachedClientComputesBucket : Obligations.CachedClientComputesBucket := by
  intro h m s _ hwf hfits hvalid
  obtain ⟨result, t, v, hblock, hstream, hserves, -⟩ :=
    selectWith_alike (u := ()) m (askBlock_alike_askStream hwf hfits) ⟨hvalid, rfl, rfl, rfl⟩
  refine ⟨t, ?_, hserves.valid, hserves.key, hserves.err, hserves.cfg⟩
  rw [selectBucketWithCache, bucketOf, hblock, hstream]

/-- An entry point returns the key's bucket when what follows its check of the pool size does. -/
theorem poolSizeChecked_computes {h : HostConfig} {m : Nat} {s : State} {rest : SelectResult × State} {seed : BitVec 32}
    {K : List Byte} {P : State → Prop} (hs : P s)
    (hrest : ∃ t, rest = (bucketOf seed h K m, t) ∧ P t) :
    ∃ t, poolSizeChecked h m s rest = (bucketOf seed h K m, t) ∧ P t := by
  obtain hm | hm | ⟨hone, hlimit⟩ := poolSize_cases h m
  · rw [bucketOf, selectWith_eq_checked, poolSizeChecked_of_limit_lt hm, poolSizeChecked_of_limit_lt hm]
    exact ⟨s, rfl, hs⟩
  · rw [bucketOf, selectWith_eq_checked, poolSizeChecked_of_le_one hm, poolSizeChecked_of_le_one hm]
    exact ⟨s, rfl, hs⟩
  · rw [poolSizeChecked_of_between hone hlimit]
    exact hrest

/-- With the CRESET no cache-validity is asked for: an empty cache is valid for every key (R155, R162). -/
theorem selectBucket_computes {h : HostConfig} (m : Nat) {s : State} (hcfg : s.cfg.wf = true) (hwf : h.wf = true)
    (hfits : h.fitsCache s.cfg = true) :
    ∃ t, selectBucket h m s = (bucketOf s.cfg.seed h s.keyBytes m, t) ∧ t.err = s.err ∧ t.cfg = s.cfg := by
  rw [selectBucket_eq_checked]
  refine poolSizeChecked_computes ⟨rfl, rfl⟩ ?_
  obtain ⟨t, hselect, -, -, herr, hcfg'⟩ :=
    cachedClientComputesBucket h m ((s.setCur none).respond 0#64) hcfg hwf hfits (State.cacheHolds_of_cur_none _ rfl)
  exact ⟨t, hselect, herr, hcfg'⟩

/-- Settles O58: the key loaded is the key presented, whatever was cached or loaded before. -/
theorem selectBucketComputesBucket : Obligations.SelectBucketComputesBucket := by
  intro h K m s hcfg hwf hfits hlength
  rw [selectBucketOfKey_eq_checked]
  refine poolSizeChecked_computes ⟨rfl, rfl⟩ ?_
  obtain ⟨hloads, -⟩ := keySequencePresentsKey s K hcfg
  obtain ⟨t, hload, -, hkey, -, -, herr, hcfg'⟩ := hloads hlength
  rw [← hcfg'] at hcfg hfits
  obtain ⟨u, hselect, herr', hcfg''⟩ := selectBucket_computes m hcfg hwf hfits
  rw [hcfg', hkey] at hselect
  exact ⟨u, (loadAndSelect_of_loaded hload).trans hselect, herr'.trans herr, hcfg''.trans hcfg'⟩

end Sys2Proof.Machine
end

/-! PROOFS, exceptions: a fault writes the latch alone, the latch keeps the first cause and gates nothing, the exact
condition of each fault. -/

/- A fault as the step that answers it. -/
section
namespace Sys2Proof.Machine

/-- Settles O14: a step appends one response, and only taking a fault appends one with a fault status. -/
theorem faultChangesOnlyTheLatch : Obligations.FaultChangesOnlyTheLatch := by
  intro s t f rest r c hin hstep houtput hstatus
  obtain ⟨hidle, -⟩ | ⟨_, hrst, -⟩ | ⟨_, rest', c', hcmd, h⟩ | ⟨_, rest', u, d, hcmd, heffect, h⟩ := step_effects s
  · simp [hin] at hidle
  · simp [hin] at hrst
  · obtain rfl : rest = rest' := (List.cons.inj (hin.symm.trans hcmd)).2
    obtain rfl := Host.Outcome.next.inj (h.symm.trans hstep)
    obtain rfl : { status := .fault c', data := 0#64 } = r := by simpa using houtput
    obtain rfl : c' = c := Status.fault.inj hstatus
    exact ⟨rfl, State.takeFault_spec { s with input := rest } c'⟩
  · obtain rfl := Host.Outcome.next.inj (h.symm.trans hstep)
    obtain ⟨-, -, -, hsame⟩ := heffect.frame
    obtain rfl : { status := .ok, data := d } = r := by simpa [hsame] using houtput
    simp at hstatus

end Sys2Proof.Machine
end

/- The latch: its first cause, and every other command with another latch in place. -/
section
namespace Sys2Proof.Machine

/-- A clear latch takes the cause (R173). -/
theorem latchErr_of_clear {e : BitVec 16} (c : CommandFault) (hclear : errF e = false) : latchErr e c = errOf c := by
  simp [latchErr, hclear]

/-- A set latch stays (R173). -/
theorem latchErr_of_set {e : BitVec 16} (c : CommandFault) (hset : errF e = true) : latchErr e c = e := by
  simp [latchErr, hset]

/-- Once a cause is recorded, no step but `RST` changes the latch (R173). -/
theorem step_keeps_set_latch {s t : State} (hstep : step s = .next t) (hrst : ∀ rest, s.input ≠ .reset :: rest)
    (hset : errF s.err = true) : t.err = s.err := by
  obtain ⟨-, h⟩ | ⟨rest, hin, -⟩ | ⟨f, rest, c, -, h⟩ | ⟨f, rest, u, d, -, heffect, h⟩ := step_effects s
  · obtain rfl := Host.Outcome.next.inj (h.symm.trans hstep)
    rfl
  · exact absurd hin (hrst rest)
  · obtain rfl := Host.Outcome.next.inj (h.symm.trans hstep)
    exact latchErr_of_set c hset
  · obtain rfl := Host.Outcome.next.inj (h.symm.trans hstep)
    obtain ⟨-, hsame, -⟩ := heffect.frame
    exact hsame

/-- The same block with another fault latch. -/
def State.withErr (s : State) (e : BitVec 16) : State := { s with err := e }

/-- No word of the stream is computed from the latch. -/
theorem State.nextWord_withErr (s : State) (e : BitVec 16) (n : Nat) : (s.withErr e).nextWord n = s.nextWord n := by
  cases n <;> rfl

theorem State.fillWords_withErr (s : State) (e : BitVec 16) (first count : Nat) :
    (s.withErr e).fillWords first count = (s.fillWords first count).withErr e := by
  induction count generalizing s first with
  | zero => rfl
  | succ count ih =>
    have hwrite : (s.withErr e).writeWord first (s.nextWord first) =
        (s.writeWord first (s.nextWord first)).withErr e := rfl
    rw [State.fillWords_succ, State.fillWords_succ, State.nextWord_withErr, hwrite, ih]

theorem State.fillTo_withErr (s : State) (e : BitVec 16) (order : Nat) :
    (s.withErr e).fillTo order = (s.fillTo order).withErr e := by
  have hcur : (s.withErr e).cur = s.cur := rfl
  rw [State.fillTo, State.fillTo, hcur, State.fillWords_withErr]
  split <;> rfl

/-- Every command writes the same whatever the latch holds, and leaves the latch as it is. -/
theorem State.effectOf_withErr (s : State) (e : BitVec 16) (i : Instr) :
    (s.withErr e).effectOf i = (s.effectOf i).withErr e := by
  cases i with
  | getbit j => exact s.fillTo_withErr e (bitOrder j)
  | _ => rfl

/-- Only RDERR reads the latch. -/
theorem State.answerOf_withErr (s : State) (e : BitVec 16) {i : Instr} (hi : i ≠ .rderr) :
    (s.withErr e).answerOf i = s.answerOf i := by
  cases i with
  | rderr => exact absurd rfl hi
  | getbit j =>
    simp only [State.answerOf, State.fillTo_withErr]
    rfl
  | _ => rfl

/-- The same answer ends in the same state but for the latch, which a fault updates from its own value (R173). -/
theorem State.finish_withErr (s : State) (e : BitVec 16) (i : Instr) (answer : Except CommandFault Word) :
    ∃ e', (s.withErr e).finish i answer = (s.finish i answer).withErr e' := by
  cases answer with
  | ok d => exact ⟨e, congrArg (State.respond · d) (s.effectOf_withErr e i)⟩
  | error c => exact ⟨latchErr e c, rfl⟩

/-- The latch gates nothing: a command other than RDERR, run with another latch, ends in the same state but for the
latch (R173). -/
theorem exec_withErr {i : Instr} {s t : State} (e : BitVec 16) (hi : i ≠ .rderr) (hexec : exec i s = .next t) :
    ∃ e', exec i (s.withErr e) = .next (t.withErr e') := by
  obtain rfl := Host.Outcome.next.inj ((exec_eq_finish i s).symm.trans hexec)
  obtain ⟨e', hfinish⟩ := s.finish_withErr e i (s.answerOf i)
  exact ⟨e', by rw [exec_eq_finish, s.answerOf_withErr e hi, hfinish]⟩

/-- Settles O15: the latch function on a clear and on a set latch, the steps that keep it, and the commands that do not
read it. -/
theorem latchKeepsFirstCause : Obligations.LatchKeepsFirstCause := by
  refine ⟨fun e c hclear => ?_, fun _ => latchErr_of_set, fun _ _ => step_keeps_set_latch, fun _ _ _ => exec_withErr⟩
  rw [latchErr_of_clear c hclear]
  exact ⟨rfl, errF_errOf c, errCause_errOf c⟩

end Sys2Proof.Machine
end

/- The exact condition of each fault that a decoded command raises. -/
section
namespace Sys2Proof.Machine

/-- R171's table without the frames that do not decode: the commands that raise a cause, each with its condition. -/
inductive State.Raises (s : State) : Instr → CommandFault → Prop where
  | selector (sel : BitVec 8) (unknown : 2 < sel.toNat) : Raises s (.rdcfg sel) .illegalOperand
  | keyByte (b : Byte) (full : s.cfg.keyCap < s.klen.toNat + 1) : Raises s (.kpush b) .keyOverflow
  | keyWord (w : Word) (full : s.cfg.keyCap < s.klen.toNat + 8) : Raises s (.kpushw w) .keyOverflow
  | order (j : BitVec 32) (outOfRange : s.cfg.cacheWords ≤ bitOrder j) : Raises s (.getbit j) .cacheRange
  | index (n : BitVec 32) (beyond : firstMissing s.cur ≤ n.toNat) : Raises s (.rdw n) .wordInvalid

theorem State.answerOf_getbit {s : State} {j : BitVec 32} (inRange : bitOrder j < s.cfg.cacheWords) :
    s.answerOf (.getbit j) = .ok (selectBit ((s.fillTo (bitOrder j)).word (bitOrder j)) (bitPosition j)) :=
  if_neg inRange.not_ge

theorem State.answerOf_getbit_range {s : State} {j : BitVec 32} (outOfRange : s.cfg.cacheWords ≤ bitOrder j) :
    s.answerOf (.getbit j) = .error .cacheRange :=
  if_pos outOfRange

/-- The selectors up to 2 name a constant (R142). -/
theorem State.answerOf_rdcfg (s : State) {sel : BitVec 8} (known : sel.toNat ≤ 2) :
    ∃ d, s.answerOf (.rdcfg sel) = .ok d := by
  obtain ⟨n, hn⟩ : ∃ n, sel.toNat = n := ⟨_, rfl⟩
  rw [State.answerOf, cfgConstant, hn]
  rw [hn] at known
  interval_cases n <;> exact ⟨_, rfl⟩

theorem State.answerOf_rdcfg_unknown (s : State) {sel : BitVec 8} (unknown : 2 < sel.toNat) :
    s.answerOf (.rdcfg sel) = .error .illegalOperand := by
  rw [State.answerOf, cfgConstant_unknown s.cfg unknown, Option.elim]

/-- A command raises a cause exactly when it is in the table: each command's check holds or fails (R171). -/
theorem State.answerOf_error_iff {s : State} {i : Instr} {c : CommandFault} :
    s.answerOf i = .error c ↔ s.Raises i c := by
  constructor
  · intro h
    cases i with
    | nop | kclr | mhash | rhash | creset | rdcur | rdklen | rderr => cases h
    | kpush b =>
      obtain full | room := Nat.lt_or_ge s.cfg.keyCap (s.klen.toNat + 1)
      · cases (State.answerOf_kpush_full b full).symm.trans h
        exact .keyByte b full
      · cases (State.answerOf_kpush b room).symm.trans h
    | kpushw w =>
      obtain full | room := Nat.lt_or_ge s.cfg.keyCap (s.klen.toNat + 8)
      · cases (State.answerOf_kpushw_full w full).symm.trans h
        exact .keyWord w full
      · cases (State.answerOf_kpushw w room).symm.trans h
    | getbit j =>
      obtain inRange | outOfRange := Nat.lt_or_ge (bitOrder j) s.cfg.cacheWords
      · cases (State.answerOf_getbit inRange).symm.trans h
      · cases (State.answerOf_getbit_range outOfRange).symm.trans h
        exact .order j outOfRange
    | rdw n =>
      obtain cached | beyond := Nat.lt_or_ge n.toNat (firstMissing s.cur)
      · cases (State.answerOf_rdw cached).symm.trans h
      · cases (State.answerOf_rdw_invalid beyond).symm.trans h
        exact .index n beyond
    | rdcfg sel =>
      obtain unknown | known := Nat.lt_or_ge 2 sel.toNat
      · cases (s.answerOf_rdcfg_unknown unknown).symm.trans h
        exact .selector sel unknown
      · obtain ⟨d, hanswer⟩ := s.answerOf_rdcfg known
        cases hanswer.symm.trans h
  · intro h
    cases h with
    | selector sel unknown => exact s.answerOf_rdcfg_unknown unknown
    | keyByte b full => exact State.answerOf_kpush_full b full
    | keyWord w full => exact State.answerOf_kpushw_full w full
    | order j outOfRange => exact State.answerOf_getbit_range outOfRange
    | index n beyond => exact State.answerOf_rdw_invalid beyond

/-- The response of a command carries a cause exactly when the command raises it (R171). -/
theorem exec_status_fault_iff {i : Instr} {s t : State} {r : Response} (hexec : exec i s = .next t)
    (houtput : t.output = s.output ++ [r]) (c : CommandFault) : r.status = .fault c ↔ s.Raises i c := by
  rw [← State.answerOf_error_iff]
  obtain rfl : s.finish i (s.answerOf i) = t := Host.Outcome.next.inj ((exec_eq_finish i s).symm.trans hexec)
  cases hanswer : s.answerOf i with
  | ok d =>
    obtain rfl : { status := .ok, data := d } = r := by simpa [hanswer, State.finish] using houtput
    simp
  | error c' =>
    obtain rfl : { status := .fault c', data := 0#64 } = r := by simpa [hanswer, State.finish] using houtput
    simp

/-- Settles O16: the table of causes, read cause by cause. -/
theorem faultCausesExactly : Obligations.FaultCausesExactly := by
  intro i s t r hexec houtput
  have hfault := exec_status_fault_iff hexec houtput
  simp only [ne_eq, hfault, ← firstMissing_le_iff]
  refine ⟨nofun, ⟨fun h => ?_, ?_⟩, ⟨fun h => ?_, ?_⟩, ⟨fun h => ?_, ?_⟩, ⟨fun h => ?_, ?_⟩⟩
  · cases h with
    | selector sel unknown => exact ⟨sel, rfl, unknown⟩
  · rintro ⟨sel, rfl, unknown⟩
    exact .selector sel unknown
  · cases h with
    | keyByte b full => exact .inl ⟨b, rfl, full⟩
    | keyWord w full => exact .inr ⟨w, rfl, full⟩
  · rintro (⟨b, rfl, full⟩ | ⟨w, rfl, full⟩)
    exacts [.keyByte b full, .keyWord w full]
  · cases h with
    | order j outOfRange => exact ⟨j, rfl, outOfRange⟩
  · rintro ⟨j, rfl, outOfRange⟩
    exact .order j outOfRange
  · cases h with
    | index n beyond => exact ⟨n, rfl, beyond⟩
  · rintro ⟨n, rfl, beyond⟩
    exact .index n beyond

end Sys2Proof.Machine
end

/-! PROOFS, reset and hazards: `RST` leaves the reset state, and what `W` and `KEY` hold at reset shows in no response. -/

section
namespace Sys2Proof.Machine

/-- Settles O11: the step takes the move off the channel and resets the rest (R190, R191). -/
theorem resetMoveRestoresResetState : Obligations.ResetMoveRestoresResetState :=
  fun _ _ hin => step_rst hin

/-- An empty cache hides every entry of `W`, and an empty key every byte of `KEY` (R131, R192). -/
theorem State.alike_of_nothing_readable {s : State} (key : Memory) (words : Cells 64) (hcur : s.cur = none)
    (hklen : s.klen = 0#32) : s.Alike { s with key := key, words := words } :=
  { s.alike_of_cur_none words hcur with keyByte := fun a ha => absurd ha (by simp [hklen]) }

/-- Settles O52: at reset nothing of `W` and `KEY` may be read, so the two states are alike and so are their runs. -/
theorem resetContentsUnobservable : Obligations.ResetContentsUnobservable := by
  intro c key₁ key₂ words₁ words₂ moves k
  have halike : State.Alike { State.resetWith c with key := key₁, words := words₁, input := moves }
      { State.resetWith c with key := key₂, words := words₂, input := moves } :=
    State.alike_of_nothing_readable key₂ words₂ rfl rfl
  obtain ⟨t, u, ht, hu, hsame⟩ := run_alike k halike
  exact ⟨t, u, ht, hu, hsame.output⟩

end Sys2Proof.Machine
end
